-- ==== Sys2Proof/Word.lean ====
section
/-! DEFINITION. The one word type of the machine: the 8-bit unsigned byte (R9, R20, R33). -/

namespace Sys2Proof

/-- A memory cell, a register, an opcode or an operand: 8 bits, read as an unsigned number (R9). -/
abbrev Byte := BitVec 8

end Sys2Proof
end

