-- ==== Sys2Proof/Config.lean ====
section
/-! DEFINITION. The parameters of the core (R7). All are fixed; the model takes none as an argument and has no free
value. The opcode bytes stand in one table of their own, in Decode.lean. -/

namespace Sys2Proof.Config

/-- `MEM_SIZE`: the number of memory cells, addresses 0..255 (R7, R40). -/
@[simp] abbrev memSize : Nat := 256

/-- `NREGS`: the number of registers, indices 0..7 (R7, R20). -/
@[simp] abbrev numRegs : Nat := 8

/-- `RESET_PC`: the entry point (R7, R34). -/
@[simp] abbrev resetPc : Nat := 0

/-- The address `load` installs a program image at (R7, R155). -/
@[simp] abbrev loadAddress : Nat := 0

/-- What a cell that nothing has written reads as: "every index in range is always defined (initialized to 0)"
(R33, R34). -/
@[simp] abbrev unwritten : Byte := 0

/-- A bound on the steps of a run: 129 (R101). `run` steps this often at most; that no run needs more is stated, not
assumed. DEDUCED, safe (log 6). -/
abbrev maxRunSteps : Nat := 129

end Sys2Proof.Config
end

