-- ==== Sys2Proof/Machine/State.lean ====
section
/-! DEFINITION. The state of the core: the tuple (mem, x, pc, run, out) of R13, plain data; the failures it can hold;
the reset state; the host's fault and refusal reasons. -/

namespace Sys2Proof.Machine

/-- The two spaces an `AddressOutOfRange` can be about (R120). -/
inductive Space where
  | mem
  | reg
  deriving DecidableEq, Repr

/-- The ALU's operation select: a closed set of four (R80, R86). -/
inductive AluOp where
  | add
  | sub
  | mul
  | div
  deriving DecidableEq, Repr

/-- The failures of the core and of `load`, each with the information it carries (R120, R121, R128, R129). They have
names and no numeric codes. -/
inductive Failure where
  /-- A memory address of 256 or more, or a register index of 8 or more (R122, R123). -/
  | addressOutOfRange (space : Space) (offending : Nat)
  /-- A byte fetched as an opcode that is none of the four, and the pc it was fetched from (R124). -/
  | illegalInstruction (opcode : Byte) (pc : Nat)
  /-- The ALU's DIV by a register that holds 0: the operation, both indices, both values (R125). No step raises it. -/
  | divisionByZero (op : AluOp) (d s vd vs : Byte)
  /-- An operation symbol the ALU does not know (R126). No step raises it (log 8). -/
  | unsupportedOperation (symbol : String)
  /-- `load` of an image of more than 256 bytes (R121, R156). No step raises it. -/
  | programTooLarge
  /-- `load` of a value above 255 (R121, R156). No step raises it. -/
  | invalidOperand (value : Nat)
  deriving DecidableEq, Repr

/-- The run state, the only control state (R27, R28). -/
inductive RunState where
  /-- The engine executes a step; the value at reset. -/
  | running
  /-- HLT was executed: the normal end of a run. -/
  | halted
  /-- The failure `f` was raised: the abnormal end of a run. -/
  | faulted (f : Failure)
  deriving DecidableEq, Repr

/-- Memory as (address, byte) pairs in one canonical form, `Memory.wf`: addresses strictly rising and below 256, no
entry equal to what an unlisted address reads as (log 3). -/
abbrev Memory := List Host.Cell

/-- Every address of the list is above `lo` or equal to it, they rise strictly, they are below 256, and no entry holds
what an unlisted address reads as. -/
def Memory.wfFrom : Nat → Memory → Bool
  | _, [] => true
  | lo, (a, v) :: m =>
    decide (lo ≤ a) && decide (a < Config.memSize) && decide (v ≠ Config.unwritten) && Memory.wfFrom (a + 1) m

/-- The canonical form of memory. -/
def Memory.wf (m : Memory) : Bool := Memory.wfFrom 0 m

/-- The whole state of the core (R13). There is nothing else: no flags, no stack pointer, no mode, no pending
operation (R28, R30, R31, R32). -/
structure State where
  /-- Memory, 256 cells of 8 bits (R33, R40). -/
  mem : Memory
  /-- The register file, `x[0]` to `x[7]`, 8 bits each (R20, R21). -/
  x : Vector Byte 8
  /-- The program counter: the address of the next instruction's opcode byte (R24). Values 0..256, never wrapping; a
  natural number, as R25 allows (log 1). -/
  pc : Nat
  /-- The run state (R27). -/
  run : RunState
  /-- The output sequence, oldest value first (R29). -/
  out : List Byte
  deriving DecidableEq, Repr

/-- The state after reset, which is the construction of the machine (R34, R150). The spec gives every value. -/
def State.reset : State :=
  { mem := [], x := Vector.replicate 8 0, pc := Config.resetPc, run := .running, out := [] }

/-- Why there is no next state. Both are safe: the spec says no step exists there (R91; log 2). No instruction's
meaning ends in one: a failing instruction has a next state, the one whose run state is `faulted`. -/
inductive Fault where
  /-- `step` of a core that has executed HLT: "both are terminal" (R91). Raised by `step`; safe. -/
  | halted
  /-- `step` of a core that has raised the failure `f` (R91, R132). Raised by `step`; safe. -/
  | faulted (f : Failure)
  deriving DecidableEq, Repr

/-- Why an instruction or a move of the host has no meaning. -/
inductive Refusal where
  /-- An instruction with no meaning yet. No arm of `exec` answers it: every instruction has its meaning. Safe. -/
  | notModelled (mnemonic : String)
  /-- `load` at any moment but the one the spec describes, once after reset and before `run` (R157). Raised by
  `Session.load`; safe. -/
  | loadNotDescribed
  /-- `run` after a `load` that failed: the host "must not go on to `run()`" (R156). Raised by `Session.run`; safe. -/
  | runAfterFailedLoad
  deriving DecidableEq, Repr

end Sys2Proof.Machine
end

