-- ==== Sys2Proof/Machine/Ops.lean ====
section
/-! DEFINITION. The named operations on memory, registers, the output channel, the program counter and the run state:
the primitives of R10, and the one shared way a failure is raised (R130). -/

namespace Sys2Proof.Machine

/-- The byte at an address: the listed one, else what an unwritten cell reads as (R33). -/
def Memory.read : Memory → Nat → Byte
  | [], _ => Config.unwritten
  | (a, v) :: m, k => if a = k then v else Memory.read m k

/-- Take the entry of an address out of a rising list. -/
def Memory.erase : Memory → Nat → Memory
  | [], _ => []
  | (a, v) :: m, k => if a = k then m else (a, v) :: Memory.erase m k

/-- Put an entry into a rising list, in place of the one its address has. -/
def Memory.insert : Memory → Nat → Byte → Memory
  | [], k, v => [(k, v)]
  | (a, u) :: m, k, v =>
    if k < a then (k, v) :: (a, u) :: m
    else if k = a then (k, v) :: m
    else (a, u) :: Memory.insert m k v

/-- Set one byte, keeping the canonical form: the value an unlisted address reads as is not listed (log 3). -/
def Memory.write (m : Memory) (k : Nat) (v : Byte) : Memory :=
  if v = Config.unwritten then m.erase k else m.insert k v

/-- `MemRead(a, 1)`: the checked read of one byte (R10, R41). -/
def memRead (a : Nat) (s : State) : Except Failure Byte :=
  if Config.memSize ≤ a then .error (.addressOutOfRange .mem a) else .ok (s.mem.read a)

/-- `MemWrite(a, 1, v)`: the checked write of one byte; the address is checked before the value (R10, R42). The value is
any unsigned number the host offers (log 4). -/
def memWrite (a v : Nat) (s : State) : Except Failure State :=
  if Config.memSize ≤ a then .error (.addressOutOfRange .mem a)
  else if 255 < v then .error (.invalidOperand v)
  else .ok { s with mem := s.mem.write a (BitVec.ofNat 8 v) }

/-- `x[k]` for an index known to be 0..7 (R10). -/
def State.reg (s : State) (k : Fin 8) : Byte := s.x[k]

/-- `x[k] <- v` for an index known to be 0..7 (R10). -/
def State.setReg (s : State) (k : Fin 8) (v : Byte) : State := { s with x := s.x.set k v }

/-- `Emit(v)`: append one value to the output sequence and change nothing else; it never blocks and never fails
(R10, R29). -/
def State.emit (s : State) (v : Byte) : State := { s with out := s.out ++ [v] }

/-- `pc <- pc + n`, never reduced modulo anything (R25, R96). -/
def State.advance (s : State) (n : Nat) : State := { s with pc := s.pc + n }

/-- `run <- Halted` (R97, R105). -/
def State.halt (s : State) : State := { s with run := .halted }

/-- Failure entry: `run <- Faulted(f)` and every other piece of state as before the instruction (R130, R98). There is
no handler, nothing is saved, and there is no return (R132). -/
def State.raise (s : State) (f : Failure) : State := { s with run := .faulted f }

/-- The end of an instruction that was begun in the state `s`: the state it has made, or, where it raised a failure,
`s` with that failure entered (R98: either all of its effects or none). -/
def conclude (s : State) : Except Failure State → Host.Outcome State Fault Refusal
  | .ok t => .next t
  | .error f => .next (s.raise f)

/-- Why no step exists in a run state: `Halted` and `Faulted(f)` are terminal (R91; log 2). -/
def stopped : RunState → Option Fault
  | .running => none
  | .halted => some .halted
  | .faulted f => some (.faulted f)

end Sys2Proof.Machine
end

