-- ==== Sys2Proof/Machine/Control.lean ====
section
/-! DEFINITION. The control family: HLT. -/

namespace Sys2Proof.Machine

/-- HLT (R105): `run <- Halted`; the program counter stays at the HLT byte. It cannot fail. -/
def execHlt (s : State) : Host.Outcome State Fault Refusal := conclude s (.ok s.halt)

end Sys2Proof.Machine
end

