-- ==== Sys2Proof/Syntax.lean ====
section
/-! DEFINITION. The abstract syntax: one constructor per row of spec/opcode_table.json (R2, R66). -/

namespace Sys2Proof

/-- A decoded instruction: "a transient decode result" (R31), not state. An operand is the whole operand byte (R60,
R65): a register index of 8 or more is a term of this type, and it fails when the register is accessed (R72). -/
inductive Instr where
  /-- HLT: stop execution (R105). -/
  | hlt
  /-- LDI r imm: load an immediate into register `r` (R106). -/
  | ldi (r imm : Byte)
  /-- PRN r: emit register `r` on the output channel (R107). -/
  | prn (r : Byte)
  /-- MUL a b: multiply register `a` by register `b` into `a` (R108). -/
  | mul (a b : Byte)
  deriving DecidableEq, Repr

end Sys2Proof
end

