-- ==== Sys2Proof/Decode.lean ====
section
/-! DEFINITION. Decoding and encoding (R60 to R76), from one opcode table. The decoder is written once over a reader of
bytes: Machine/Fetch.lean gives it the checked reads of memory, `decode` gives it a list. -/

namespace Sys2Proof

/-- The closed set of opcodes (R2, R66): "an exhaustive match/switch over a closed opcode enum". -/
inductive Opcode where
  | hlt
  | ldi
  | prn
  | mul
  deriving DecidableEq, Repr

/-- The opcode byte of each row of the table, most significant bit first (R66, R8). -/
def Opcode.pattern : Opcode → Byte
  | .hlt => 0b00000001#8
  | .ldi => 0b10000010#8
  | .prn => 0b01000111#8
  | .mul => 0b10100010#8

/-- The length of an instruction in bytes, a function of its opcode alone (R67). It is also what LDI, PRN and MUL
advance the program counter by (R66). -/
def Opcode.length : Opcode → Nat
  | .hlt => 1
  | .ldi => 3
  | .prn => 2
  | .mul => 3

/-- The rows of the opcode table, in its order (R66). -/
def Opcode.table : List Opcode := [.hlt, .ldi, .prn, .mul]

/-- The opcode a byte spells: whole-byte equality with a row's pattern, no sub-field used (R66, R68). A byte that is no
row's pattern spells nothing (R70). -/
def Opcode.ofByte (b : Byte) : Option Opcode := Opcode.table.find? fun o => o.pattern == b

/-- The opcode of an instruction. -/
def Instr.opcode : Instr → Opcode
  | .hlt => .hlt
  | .ldi _ _ => .ldi
  | .prn _ => .prn
  | .mul _ _ => .mul

/-- The encoded length of an instruction, opcode and operand bytes (R60, R67). -/
def Instr.length (i : Instr) : Nat := i.opcode.length

/-- The longest instruction has three bytes (R7). -/
def maxInstrBytes : Nat := 3

/-- The decoder over any source of bytes: `read k` is the byte `k` places after the opcode byte, or why it cannot be
read; `illegal b` is the verdict on an opcode byte no row of the table has. The opcode is read and judged first; then
the operand bytes are read in increasing address order, and the first read that fails is the answer (R90, R94, R95). -/
def decodeWith {ε : Type} (read : Nat → Except ε Byte) (illegal : Byte → ε) : Except ε Instr := do
  let op ← read 0
  match Opcode.ofByte op with
  | none => .error (illegal op)
  | some .hlt => .ok .hlt
  | some .ldi => do
    let r ← read 1
    let imm ← read 2
    .ok (.ldi r imm)
  | some .prn => do
    let r ← read 1
    .ok (.prn r)
  | some .mul => do
    let a ← read 1
    let b ← read 2
    .ok (.mul a b)

/-- Why a list of bytes is no instruction. -/
inductive DecodeError where
  /-- The first byte is none of the four opcodes (R70). -/
  | illegalOpcode (opcode : Byte)
  /-- The list ends before the instruction does. -/
  | truncated
  deriving DecidableEq, Repr

/-- Byte `k` of a list, as a reader for `decodeWith`. -/
def listByte (bs : List Byte) (k : Nat) : Except DecodeError Byte :=
  match bs[k]? with
  | some b => .ok b
  | none => .error .truncated

/-- Decode the first instruction of a list of bytes, opcode first, and give the bytes after it (R60, R67). Total: every
list gives an instruction or a named error. -/
def decode (bs : List Byte) : Except DecodeError (Instr × List Byte) :=
  match decodeWith (listByte bs) DecodeError.illegalOpcode with
  | .ok i => .ok (i, bs.drop i.length)
  | .error e => .error e

/-- The bytes of an instruction in increasing address order (R61 to R64, R75). -/
def encode : Instr → List Byte
  | .hlt => [Opcode.hlt.pattern]
  | .ldi r imm => [Opcode.ldi.pattern, r, imm]
  | .prn r => [Opcode.prn.pattern, r]
  | .mul a b => [Opcode.mul.pattern, a, b]

/-- The bytes of an instruction given as a number: bit 0 is the least significant bit of the first byte, later bytes
count on from it; every bit from `nbits` on is 0, up to the longest instruction (log 7). -/
def wordBytes (nbits w : Nat) : List Byte :=
  (List.range maxInstrBytes).map fun k => BitVec.ofNat 8 (w % 2 ^ nbits / 2 ^ (8 * k))

/-- The instruction the decoder reads from the word `w` of `nbits` bits, numbered as spec/opcode_table.json numbers
them; none where the decoder rejects it. -/
def decodeTableWord (nbits w : Nat) : Option Instr :=
  match decode (wordBytes nbits w) with
  | .ok (i, _) => some i
  | .error _ => none

end Sys2Proof
end

