-- ==== Sys2Proof/Machine/Flags.lean ====
section
/-! DEFINITION. There are no flags (R30): no carry, zero, sign or overflow indication is written or read. What an
out-of-range result does instead is here, once: it wraps silently (R81). -/

namespace Sys2Proof.Machine

/-- Narrow an exact result to a register: the integer modulo 256, also for a negative one (R9, R81). -/
def narrow (v : Int) : Byte := BitVec.ofInt 8 v

end Sys2Proof.Machine
end

