-- ==== Sys2Proof/Machine/Operands.lean ====
section
/-! DEFINITION. The two operand forms (R44, R109): register direct and immediate; and the checked register accesses of
R10 and R23. -/

namespace Sys2Proof.Machine

/-- A register-direct operand: the whole operand byte, compared with 8 and not masked (R23, R65). -/
def regOperand (i : Byte) : Except Failure (Fin 8) :=
  if h : i.toNat < 8 then .ok ⟨i.toNat, h⟩ else .error (.addressOutOfRange .reg i.toNat)

/-- An immediate operand: the operand byte unchanged, neither extended nor scaled (R65). -/
def immOperand (imm : Byte) : Byte := imm

/-- `RegRead(i)` (R10, R23). -/
def regRead (i : Byte) (s : State) : Except Failure Byte := do
  let k ← regOperand i
  .ok (s.reg k)

/-- `RegWrite(i, v)` (R10, R23). -/
def regWrite (i v : Byte) (s : State) : Except Failure State := do
  let k ← regOperand i
  .ok (s.setReg k v)

end Sys2Proof.Machine
end

