-- ==== Sys2Proof/Machine/Alu.lean ====
section
/-! DEFINITION. The ALU, whole (R80 to R89). MUL is the only operation an instruction reaches (R88); the others are the
component's contract. -/

namespace Sys2Proof.Machine

/-- `result(op, vd, vs)`: the exact result narrowed (R82, R83, R84), or the floor of the quotient, or `DivisionByZero`
with the operation, the indices and the values (R85). -/
def aluResult (op : AluOp) (d s vd vs : Byte) : Except Failure Byte :=
  match op with
  | .add => .ok (narrow ((vd.toNat : Int) + vs.toNat))
  | .sub => .ok (narrow ((vd.toNat : Int) - vs.toNat))
  | .mul => .ok (narrow ((vd.toNat : Int) * vs.toNat))
  | .div => if vs = 0 then .error (.divisionByZero .div d s vd vs) else .ok (narrow (vd.toNat / vs.toNat : Nat))

/-- `alu(op, d, s)`: read `x[d]`, read `x[s]`, write the result to `x[d]` (R80). Both reads come before the write, so
`d` and `s` may be one register (R87); index `d` is checked before `s`. -/
def alu (op : AluOp) (d s : Byte) (st : State) : Except Failure State := do
  let vd ← regRead d st
  let vs ← regRead s st
  let r ← aluResult op d s vd vs
  regWrite d r st

/-- The ALU's operation given by a symbol: one of the four, else `UnsupportedOperation` naming it (R86). No step calls
it: the operation select of the core is the closed type `AluOp` (log 8). -/
def aluOpOfSymbol (symbol : String) : Except Failure AluOp :=
  if symbol = "ADD" then .ok .add
  else if symbol = "SUB" then .ok .sub
  else if symbol = "MUL" then .ok .mul
  else if symbol = "DIV" then .ok .div
  else .error (.unsupportedOperation symbol)

/-- The ALU's contract by symbol, "`apply(operation, dest_register, src_register)`" (R80, R86). -/
def aluApply (symbol : String) (d s : Byte) (st : State) : Except Failure State := do
  let op ← aluOpOfSymbol symbol
  alu op d s st

end Sys2Proof.Machine
end

