-- ==== Sys2Proof/Machine/Data.lean ====
section
/-! DEFINITION. The register family: LDI and MUL. -/

namespace Sys2Proof.Machine

/-- LDI r imm (R106): `x[r] <- imm`, then `pc <- pc + 3`; `AddressOutOfRange(Reg, r)` when `r` is 8..255. -/
def execLdi (r imm : Byte) (s : State) : Host.Outcome State Fault Refusal :=
  conclude s do
    let t ← regWrite r (immOperand imm) s
    .ok (t.advance Opcode.ldi.length)

/-- MUL a b (R108): `alu(MUL, a, b)`, then `pc <- pc + 3`; `AddressOutOfRange(Reg, _)` for the first of `a`, `b` that is
8..255. -/
def execMul (a b : Byte) (s : State) : Host.Outcome State Fault Refusal :=
  conclude s do
    let t ← alu .mul a b s
    .ok (t.advance Opcode.mul.length)

end Sys2Proof.Machine
end

