-- ==== Sys2Proof/Machine/Output.lean ====
section
/-! DEFINITION. The output family: PRN. -/

namespace Sys2Proof.Machine

/-- PRN r (R107): `Emit(x[r])`, then `pc <- pc + 2`; `AddressOutOfRange(Reg, r)` when `r` is 8..255, and then nothing is
emitted. -/
def execPrn (r : Byte) (s : State) : Host.Outcome State Fault Refusal :=
  conclude s do
    let v ← regRead r s
    .ok ((s.emit v).advance Opcode.prn.length)

end Sys2Proof.Machine
end

