-- ==== Sys2Proof/Machine/Fetch.lean ====
section
/-! DEFINITION. Fetching and decoding the instruction at the program counter (R90 steps 1 and 2, R92, R94), and placing
an instruction where it is fetched. -/

namespace Sys2Proof.Machine

/-- Read the opcode at `pc`, judge it, then read its operands at `pc+1`, `pc+2` as far as it has them; each read is the
checked `MemRead` and the first failure met is the answer (R92, R94, R127). -/
def fetch (s : State) : Except Failure Instr :=
  decodeWith (fun k => memRead (s.pc + k) s) fun op => .illegalInstruction op s.pc

/-- Store bytes from an address up, one after the other; a byte that would lie beyond Memory is dropped (log 7). -/
def placeBytes : List Byte → Nat → Memory → Memory
  | [], _, m => m
  | b :: bs, a, m => placeBytes bs (a + 1) (if a < Config.memSize then m.write a b else m)

end Sys2Proof.Machine
end

