-- ==== Sys2Proof/Machine/Step.lean ====
section
/-! DEFINITION. One step of the machine (R90, R91). -/

namespace Sys2Proof.Machine

/-- One pass through fetch, decode, execute and advance (R90). From `Halted` and `Faulted(f)` there is no step (R91).
A failure met while fetching or decoding is entered like any other (R130). -/
def step (s : State) : Host.Outcome State Fault Refusal :=
  match stopped s.run with
  | some r => .fault r
  | none =>
    match fetch s with
    | .error f => .next (s.raise f)
    | .ok i => exec i s

/-- `s` with the instruction word `w` of `nbits` bits stored where `step` fetches its next instruction (log 7). It
changes memory at `pc`, `pc+1`, `pc+2` and nothing else. -/
def State.withFetchWord (s : State) (nbits w : Nat) : State :=
  { s with mem := placeBytes (wordBytes nbits w) s.pc s.mem }

end Sys2Proof.Machine
end

