-- ==== Sys2Proof/Machine/Boot.lean ====
section
/-! DEFINITION. The host's operations on the core (R154 to R161): `load`, `run`, `trace`, reading the results; and a
session, which says at which moments the host may do which (R152, R154, R156, R157, R159). -/

namespace Sys2Proof.Machine

/-- The first value of an image that is no byte (R156). -/
def firstInvalid (image : List Nat) : Option Nat := image.find? fun v => decide (255 < v)

/-- `MemWrite` each value in turn, from an address up (R155). -/
def writeImage : List Nat → Nat → State → Except Failure State
  | [], _, s => .ok s
  | v :: vs, a, s => do
    let t ← memWrite a v s
    writeImage vs (a + 1) t

/-- `load(bytes)`: install an image at address 0 (R155). The length is checked first, then the first value above 255;
on a failure no cell changes (R156). -/
def load (image : List Nat) (s : State) : Except Failure State :=
  if Config.memSize < image.length then .error .programTooLarge
  else
    match firstInvalid image with
    | some v => .error (.invalidOperand v)
    | none => writeImage image Config.loadAddress s

/-- Step at most `n` times, stopping where there is no step (R100). -/
def runFor : Nat → State → State
  | 0, s => s
  | n + 1, s =>
    match step s with
    | .next t => runFor n t
    | .fault _ => s
    | .refused _ => s

/-- `run()`: step until `run` is `Halted` or `Faulted(f)` (R100, R158). On a core that is already there it executes no
step (R159). 129 steps reach the end from every state (R101; log 6). -/
def run (s : State) : State := runFor Config.maxRunSteps s

/-- How `run()` comes back to the host: "returns normally on HLT, propagates any failure" (R100, R158). -/
inductive RunResult where
  | returned
  | failed (f : Failure)
  deriving DecidableEq, Repr

/-- The outcome of `run()` that a run state records; a running core records none yet (R27, R159). -/
def runResult : RunState → Option RunResult
  | .running => none
  | .halted => some .returned
  | .faulted f => some (.failed f)

/-- What `trace()` reads (R160): the program counter, the cells at `pc`, `pc+1`, `pc+2`, absent from 256 on, and the
eight registers. Its text format is no part of the model (log 10). -/
structure Snapshot where
  pc : Nat
  window : List (Option Byte)
  regs : Vector Byte 8
  deriving DecidableEq, Repr

/-- A cell as `trace` reports it: absent where there is none (R160). -/
def traceCell (s : State) (a : Nat) : Option Byte :=
  if a < Config.memSize then some (s.mem.read a) else none

/-- `trace()`: a pure observer that never raises (R142, R160). -/
def trace (s : State) : Snapshot :=
  { pc := s.pc, window := [traceCell s s.pc, traceCell s (s.pc + 1), traceCell s (s.pc + 2)], regs := s.x }

/-- The host's rendering of one emitted value: its decimal digits, no sign, no leading zeros (R29). The line end that
follows it is not part of the string (log 10). -/
def outLine (v : Byte) : String := Nat.repr v.toNat

/-- The lines the host sees: line `k` is the value the `k`-th PRN emitted (R161). -/
def outLines (s : State) : List String := s.out.map outLine

/-- What the host reads after a run has ended (R154, R161). -/
structure Results where
  lines : List String
  mem : Memory
  x : Vector Byte 8
  pc : Nat
  run : RunState
  deriving DecidableEq, Repr

/-- Where the host stands between a reset and the end of the run it started (R152, R154). -/
inductive Phase where
  /-- After reset, before any `load`. -/
  | constructed
  /-- After the one `load`, which succeeded. -/
  | loaded
  /-- After the one `load`, which failed: the host must not go on (R156). -/
  | loadFailed
  /-- After `run()` came back. -/
  | ended
  deriving DecidableEq, Repr

/-- The core together with where the host stands. The phase is the host's, not the core's: R13 gives the core five
pieces of state and no more (log 5). -/
structure Session where
  core : State
  phase : Phase
  deriving DecidableEq, Repr

/-- Reset: the construction of the machine, which discards everything (R150, R151). -/
def Session.start : Session := { core := State.reset, phase := .constructed }

/-- The host's `load`, with the failure it gets back where it fails. A failed `load` leaves the core as it was and
running (R156). Any `load` but the first since reset, before `run()`, is refused (R157). -/
def Session.load (image : List Nat) (h : Session) : Host.Outcome (Session × Option Failure) Fault Refusal :=
  match h.phase with
  | .constructed =>
    match Sys2Proof.Machine.load image h.core with
    | .ok s => .next ({ core := s, phase := .loaded }, none)
    | .error f => .next ({ h with phase := .loadFailed }, some f)
  | .loaded => .refused .loadNotDescribed
  | .loadFailed => .refused .loadNotDescribed
  | .ended => .refused .loadNotDescribed

/-- The host's `run()`, with what it gets back: allowed with no `load` before it (R152) and again after the run has
ended (R159); refused after a failed `load` (R156). Nothing of the host's comes between its steps (R35). -/
def Session.run (h : Session) : Host.Outcome (Session × Option RunResult) Fault Refusal :=
  match h.phase with
  | .constructed => .next ({ core := Sys2Proof.Machine.run h.core, phase := .ended }, runResult (Sys2Proof.Machine.run h.core).run)
  | .loaded => .next ({ core := Sys2Proof.Machine.run h.core, phase := .ended }, runResult (Sys2Proof.Machine.run h.core).run)
  | .loadFailed => .refused .runAfterFailedLoad
  | .ended => .next ({ core := Sys2Proof.Machine.run h.core, phase := .ended }, runResult (Sys2Proof.Machine.run h.core).run)

/-- The host's reset: a new machine, whatever went before; the only way out of `Halted` and `Faulted` (R150, R151). -/
def Session.reset (_ : Session) : Session := Session.start

/-- The host's `trace()`, at any time: it gives a snapshot and leaves the session as it is (R154, R160). -/
def Session.trace (h : Session) : Session × Snapshot := (h, Sys2Proof.Machine.trace h.core)

/-- Reading the results, after the run has ended (R154, R161). -/
def Session.results (h : Session) : Option Results :=
  match h.phase with
  | .ended => some { lines := outLines h.core, mem := h.core.mem, x := h.core.x, pc := h.core.pc, run := h.core.run }
  | .constructed => none
  | .loaded => none
  | .loadFailed => none

end Sys2Proof.Machine
end

