-- ==== Sys2Proof/WellFormed.lean ====
section
/-! DEFINITION. Which instructions are well formed: those whose register operands name a register (R62, R63, R64: "legal
values 0..7"). Ill-formed ones decode and run as well; they fail at the register access (R72). -/

namespace Sys2Proof

/-- A register operand names one of the eight registers (R23, R72). -/
def registerOperandOk (r : Byte) : Bool := decide (r.toNat < Config.numRegs)

/-- Every register operand of the instruction is 0..7; an immediate may be any byte (R72). -/
def Instr.wellFormed : Instr → Bool
  | .hlt => true
  | .ldi r _ => registerOperandOk r
  | .prn r => registerOperandOk r
  | .mul a b => registerOperandOk a && registerOperandOk b

end Sys2Proof
end

