-- ==== Sys2Proof/Safety.lean ====
section
/-! DEFINITION. What claims about the machine are stated with: the invariant of every reachable state (R35), and what a
failure recorded in a state says about it; and the small vocabulary of the statements. -/

namespace Sys2Proof.Machine

/-- What a run state says about the rest of the state (R35, R105, R122, R123, R124, R130): a halted core stands at a
HLT byte; a core that failed stands at the instruction that failed and carries the information of R120. -/
def State.runAgrees (s : State) : Prop :=
  match s.run with
  | .running => True
  | .halted => s.pc < 256 ∧ s.mem.read s.pc = 0x01#8
  | .faulted (.addressOutOfRange .mem a) => a = 256 ∧ 254 ≤ s.pc
  | .faulted (.addressOutOfRange .reg i) => 8 ≤ i ∧ i ≤ 255 ∧ s.pc ≤ 254
  | .faulted (.illegalInstruction op p) => p = s.pc ∧ s.pc < 256 ∧ op = s.mem.read s.pc ∧ Opcode.ofByte op = none
  | .faulted (.divisionByZero _ _ _ _ _) => False
  | .faulted (.unsupportedOperation _) => False
  | .faulted .programTooLarge => False
  | .faulted (.invalidOperand _) => False

/-- The invariant of every reachable state (R35): memory in its canonical form over 256 cells, the program counter in
0..256, at most one output value for every two bytes executed (so at most 128), and a run state that agrees with the
rest. Cells and registers hold 0..255 by their type. -/
structure State.Inv (s : State) : Prop where
  memWf : s.mem.wf = true
  pcLe : s.pc ≤ 256
  outLe : 2 * s.out.length ≤ s.pc
  runOk : s.runAgrees

/-- The bytes `bs` stand in memory from an address up, all of them inside it. -/
def bytesAt (m : Memory) : Nat → List Byte → Bool
  | _, [] => true
  | a, b :: bs => decide (a < 256) && decide (m.read a = b) && bytesAt m (a + 1) bs

/-- `t` is reached from `s` by exactly `n` steps (R100). -/
def StepsTo : Nat → State → State → Prop
  | 0, s, t => s = t
  | n + 1, s, t => ∃ u, step s = .next u ∧ StepsTo n u t

/-- How many bytes the step at `s` fetches, where it fetches all it asks for: the instruction's length, or the opcode
byte alone where that is illegal (R44, R70). -/
def fetchedBytes (s : State) : Nat :=
  match Opcode.ofByte (s.mem.read s.pc) with
  | some o => o.length
  | none => 1

/-- The indices of the registers an instruction reads (R22). -/
def regsRead : Instr → List Nat
  | .hlt => []
  | .ldi _ _ => []
  | .prn r => [r.toNat]
  | .mul a b => [a.toNat, b.toNat]

/-- The indices of the registers an instruction writes (R22). -/
def regsWritten : Instr → List Nat
  | .hlt => []
  | .ldi r _ => [r.toNat]
  | .prn _ => []
  | .mul a _ => [a.toNat]

/-- The first register operand that names no register, in operand order (R95). -/
def firstBadIndex : Instr → Option Nat
  | .hlt => none
  | .ldi r _ => if 8 ≤ r.toNat then some r.toNat else none
  | .prn r => if 8 ≤ r.toNat then some r.toNat else none
  | .mul a b => if 8 ≤ a.toNat then some a.toNat else if 8 ≤ b.toNat then some b.toNat else none

/-- An outcome with a function applied to its next state. -/
def mapNext (g : State → State) : Host.Outcome State Fault Refusal → Host.Outcome State Fault Refusal
  | .next t => .next (g t)
  | .fault r => .fault r
  | .refused r => .refused r

/-- The next state of an outcome, if it has one. -/
def nextState : Host.Outcome State Fault Refusal → Option State
  | .next t => some t
  | .fault _ => none
  | .refused _ => none

end Sys2Proof.Machine
end

