-- ==== Sys2Proof/Certificates/Slice0/Obligations.lean ====
section
/-! DEFINITION. The statements for the provers. A statement with a clause that rests on one of the spec's decisions D<n>
or on an entry of the assumption log has basis 'derived' in OBLIGATIONS.json and names the decision or the entry here. -/

open Sys2Proof Sys2Proof.Machine

/-! ### Encoding -/

/-- R61 to R64, R75: the words of the four formats, written out from the tables, decode to the instructions they stand
for, for every operand byte and whatever follows; the encoder writes the same bytes; and the register operands whose
values are 0..7 are the legal ones. -/
def Obligations.FormatsDecodeAsTheTablesSay : Prop :=
  ∀ (r imm a b : Byte) (rest : List Byte),
    decode (0b00000001#8 :: rest) = .ok (.hlt, rest) ∧
    decode (0b01000111#8 :: r :: rest) = .ok (.prn r, rest) ∧
    decode (0b10000010#8 :: r :: imm :: rest) = .ok (.ldi r imm, rest) ∧
    decode (0b10100010#8 :: a :: b :: rest) = .ok (.mul a b, rest) ∧
    encode .hlt = [0x01#8] ∧ encode (.prn r) = [0x47#8, r] ∧
    encode (.ldi r imm) = [0x82#8, r, imm] ∧ encode (.mul a b) = [0xA2#8, a, b] ∧
    ((Instr.prn r).wellFormed = true ↔ r.toNat ≤ 7) ∧ ((Instr.ldi r imm).wellFormed = true ↔ r.toNat ≤ 7) ∧
    ((Instr.mul a b).wellFormed = true ↔ a.toNat ≤ 7 ∧ b.toNat ≤ 7)

/-- R67: the length of an instruction is a function of its opcode byte alone, and every opcode byte gives one of the
four instructions or the verdict illegal, which is given without a look at what follows. -/
def Obligations.OpcodeByteAloneFixesTheLength : Prop :=
  ∀ (op : Byte) (bs : List Byte),
    (op = 0x01#8 → decode (op :: bs) = .ok (.hlt, bs)) ∧
    (op = 0x47#8 → (∀ r tl, bs = r :: tl → decode (op :: bs) = .ok (.prn r, tl)) ∧
      (bs.length < 1 → decode (op :: bs) = .error .truncated)) ∧
    (op = 0x82#8 → (∀ r imm tl, bs = r :: imm :: tl → decode (op :: bs) = .ok (.ldi r imm, tl)) ∧
      (bs.length < 2 → decode (op :: bs) = .error .truncated)) ∧
    (op = 0xA2#8 → (∀ a b tl, bs = a :: b :: tl → decode (op :: bs) = .ok (.mul a b, tl)) ∧
      (bs.length < 2 → decode (op :: bs) = .error .truncated)) ∧
    (op ≠ 0x01#8 → op ≠ 0x47#8 → op ≠ 0x82#8 → op ≠ 0xA2#8 →
      decode (op :: bs) = .error (.illegalOpcode op))

/-- The decoder accepts exactly the encodings: a list decodes to an instruction and a rest if and only if it is that
instruction's bytes followed by that rest. It holds for every instruction, the ill-formed ones too. -/
def Obligations.DecodeAcceptsExactlyTheEncodings : Prop :=
  ∀ (bs rest : List Byte) (i : Instr), decode bs = .ok (i, rest) ↔ bs = encode i ++ rest

/-- Fetching at the program counter gives an instruction exactly where its encoding stands in memory there. -/
def Obligations.FetchReadsExactlyTheEncodedBytes : Prop :=
  ∀ (s : State) (i : Instr), fetch s = .ok i ↔ bytesAt s.mem s.pc (encode i) = true

/-- A step runs the decoded instruction: where the bytes of an instruction, well formed or not, stand at the program
counter of a running core, `step` is `exec` of it, and nothing is done around it. -/
def Obligations.StepRunsTheDecodedInstruction : Prop :=
  ∀ (s : State) (i : Instr), s.run = .running → bytesAt s.mem s.pc (encode i) = true → step s = exec i s

/-- What `load` installs is what the first step runs: the entry point is the first byte of the image (R48, R152). -/
def Obligations.FirstStepRunsTheStartOfTheImage : Prop :=
  ∀ (i : Instr) (tail : List Byte) (s : State),
    load ((encode i ++ tail).map BitVec.toNat) State.reset = .ok s → step s = exec i s

/-! ### The four instructions: what each does, and that it completes -/

/-- HLT completes in every state: the run state becomes Halted and nothing else changes. -/
def Obligations.HltCompletes : Prop :=
  ∀ s : State, exec .hlt s = .next { s with run := .halted }

/-- LDI r imm completes for every register 0..7, every immediate and every state. -/
def Obligations.LdiCompletes : Prop :=
  ∀ (s : State) (r imm : Byte) (_ : r.toNat < 8),
    ∃ t, exec (.ldi r imm) s = .next t ∧ t.x[r.toNat] = imm ∧
      (∀ k (_ : k < 8), k ≠ r.toNat → t.x[k] = s.x[k]) ∧
      t.pc = s.pc + 3 ∧ t.mem = s.mem ∧ t.run = s.run ∧ t.out = s.out

/-- PRN r completes for every register 0..7 and every state. That the output channel is a sequence of values is the
spec's decision D10. -/
def Obligations.PrnCompletes : Prop :=
  ∀ (s : State) (r : Byte) (_ : r.toNat < 8),
    ∃ t, exec (.prn r) s = .next t ∧ t.out = s.out ++ [s.x[r.toNat]] ∧
      t.pc = s.pc + 2 ∧ t.x = s.x ∧ t.mem = s.mem ∧ t.run = s.run

/-- MUL a b completes for every pair of registers 0..7, equal ones too, and every state: the product modulo 256, the
spec's decision D1. -/
def Obligations.MulCompletes : Prop :=
  ∀ (s : State) (a b : Byte) (_ : a.toNat < 8) (_ : b.toNat < 8),
    ∃ t, exec (.mul a b) s = .next t ∧
      t.x[a.toNat].toNat = (s.x[a.toNat].toNat * s.x[b.toNat].toNat) % 256 ∧
      (∀ k (_ : k < 8), k ≠ a.toNat → t.x[k] = s.x[k]) ∧
      t.pc = s.pc + 3 ∧ t.mem = s.mem ∧ t.run = s.run ∧ t.out = s.out

/-- Every well-formed instruction whose bytes stand at the program counter of a running core completes: the next state
is not a failed one. HLT halts, the others leave the core running. -/
def Obligations.WellFormedInstructionsComplete : Prop :=
  ∀ (s : State) (i : Instr), s.run = .running → i.wellFormed = true → bytesAt s.mem s.pc (encode i) = true →
    ∃ t, step s = .next t ∧ (i = .hlt → t.run = .halted) ∧ (i ≠ .hlt → t.run = .running)

/-- In a step that raises nothing, the instruction's one effect is made and the program counter is written once,
advanced by the encoded length and never reduced; HLT leaves it alone. It never passes 256 (R96). The product modulo 256
is the spec's decision D1, the emission as a value at the end of a sequence D10. -/
def Obligations.EffectThenAdvanceByTheLength : Prop :=
  ∀ (s t : State) (i : Instr), s.run = .running → bytesAt s.mem s.pc (encode i) = true → step s = .next t →
    (∀ f, t.run ≠ .faulted f) →
    t.pc ≤ 256 ∧
    match i with
    | .hlt => t = { s with run := .halted }
    | .ldi r imm => ∃ h : r.toNat < 8, t = { s with x := s.x.set r.toNat imm h, pc := s.pc + 3 }
    | .prn r => ∃ h : r.toNat < 8, t = { s with out := s.out ++ [s.x[r.toNat]], pc := s.pc + 2 }
    | .mul a b => ∃ (h : a.toNat < 8) (_ : b.toNat < 8) (v : Byte),
        v.toNat = (s.x[a.toNat].toNat * s.x[b.toNat].toNat) % 256 ∧
        t = { s with x := s.x.set a.toNat v h, pc := s.pc + 3 }

/-! ### Frames -/

/-- The frame of the instructions that write a register, LDI and MUL, whatever the outcome of their index checks: every
other register, every byte of memory and the output sequence are unchanged; the run state is unchanged or a failure. -/
def Obligations.LdiAndMulFrame : Prop :=
  ∀ (s t : State) (d o : Byte), exec (.ldi d o) s = .next t ∨ exec (.mul d o) s = .next t →
    (∀ k (_ : k < 8), k ≠ d.toNat → t.x[k] = s.x[k]) ∧
    (∀ a, t.mem.read a = s.mem.read a) ∧ t.mem = s.mem ∧ t.out = s.out ∧
    (t.run = s.run ∨ ∃ f, t.run = .faulted f)

/-- The frame of the instructions that write no register, HLT and PRN: every register and every byte of memory are
unchanged; HLT leaves the output sequence, PRN leaves it or adds one value at its end; HLT leaves the program counter;
PRN leaves the run state or enters a failure. -/
def Obligations.HltAndPrnFrame : Prop :=
  ∀ (s t : State) (r : Byte),
    (exec .hlt s = .next t →
      t.x = s.x ∧ (∀ a, t.mem.read a = s.mem.read a) ∧ t.mem = s.mem ∧ t.out = s.out ∧ t.pc = s.pc) ∧
    (exec (.prn r) s = .next t →
      t.x = s.x ∧ (∀ a, t.mem.read a = s.mem.read a) ∧ t.mem = s.mem ∧
      (t.out = s.out ∨ ∃ v, t.out = s.out ++ [v]) ∧ (t.run = s.run ∨ ∃ f, t.run = .faulted f))

/-- No register but those the table of R22 lists plays a part: changing a register an instruction neither reads nor
writes changes that register in the next state and nothing else; and the old value of the register LDI writes plays no
part. -/
def Obligations.OnlyListedRegistersMatter : Prop :=
  (∀ (i : Instr) (s : State) (k : Fin 8) (v : Byte), k.val ∉ regsRead i → k.val ∉ regsWritten i →
    exec i (s.setReg k v) = mapNext (fun t => t.setReg k v) (exec i s)) ∧
  (∀ (s : State) (r imm : Byte) (k : Fin 8) (v : Byte), k.val = r.toNat →
    exec (.ldi r imm) (s.setReg k v) = exec (.ldi r imm) s)

/-! ### The step -/

/-- The pseudocode of R90 written out flat, on the bytes of memory, with the checks in its order. -/
def Sys2Proof.Machine.cycleOfR90 (s : State) : State :=
  if 256 ≤ s.pc then s.raise (.addressOutOfRange .mem s.pc)
  else if s.mem.read s.pc = 0x01#8 then { s with run := .halted }
  else if s.mem.read s.pc = 0x82#8 then
    if 256 ≤ s.pc + 1 then s.raise (.addressOutOfRange .mem (s.pc + 1))
    else if 256 ≤ s.pc + 2 then s.raise (.addressOutOfRange .mem (s.pc + 2))
    else if h : (s.mem.read (s.pc + 1)).toNat < 8 then
      { s with x := s.x.set (s.mem.read (s.pc + 1)).toNat (s.mem.read (s.pc + 2)) h, pc := s.pc + 3 }
    else s.raise (.addressOutOfRange .reg (s.mem.read (s.pc + 1)).toNat)
  else if s.mem.read s.pc = 0x47#8 then
    if 256 ≤ s.pc + 1 then s.raise (.addressOutOfRange .mem (s.pc + 1))
    else if h : (s.mem.read (s.pc + 1)).toNat < 8 then
      { s with out := s.out ++ [s.x[(s.mem.read (s.pc + 1)).toNat]], pc := s.pc + 2 }
    else s.raise (.addressOutOfRange .reg (s.mem.read (s.pc + 1)).toNat)
  else if s.mem.read s.pc = 0xA2#8 then
    if 256 ≤ s.pc + 1 then s.raise (.addressOutOfRange .mem (s.pc + 1))
    else if 256 ≤ s.pc + 2 then s.raise (.addressOutOfRange .mem (s.pc + 2))
    else if ha : (s.mem.read (s.pc + 1)).toNat < 8 then
      if hb : (s.mem.read (s.pc + 2)).toNat < 8 then
        { s with
          x := s.x.set (s.mem.read (s.pc + 1)).toNat
            (BitVec.ofNat 8 (s.x[(s.mem.read (s.pc + 1)).toNat].toNat * s.x[(s.mem.read (s.pc + 2)).toNat].toNat)) ha,
          pc := s.pc + 3 }
      else s.raise (.addressOutOfRange .reg (s.mem.read (s.pc + 2)).toNat)
    else s.raise (.addressOutOfRange .reg (s.mem.read (s.pc + 1)).toNat)
  else s.raise (.illegalInstruction (s.mem.read s.pc) s.pc)

/-- From every running state, `step` is one pass of the cycle as the pseudocode of R90 gives it; any `raise` writes the
run state and nothing else. Clauses that are the spec's own decisions: the product modulo 256 D1, the illegal opcode's
failure D4, precise failures D6, the order of the checks D7, the space tag D8, the whole index byte D9, the emission
D10. -/
def Obligations.StepIsTheCycleOfTheEngine : Prop :=
  ∀ s : State, s.run = .running → step s = .next (cycleOfR90 s)

/-- A step exists exactly when the core is running, and where none exists the host is told by name which end of the run
it is: the spec's decision D11, and for the host's outcomes log 2. No step is refused. -/
def Obligations.StepExistsExactlyWhenRunning : Prop :=
  ∀ s : State, ((∃ t, step s = .next t) ↔ s.run = .running) ∧
    (s.run = .halted ↔ step s = .fault .halted) ∧
    (∀ f, s.run = .faulted f ↔ step s = .fault (.faulted f)) ∧
    (∀ q, step s ≠ .refused q)

/-- HLT is the only way to end a run normally. It leaves the program counter at the HLT byte, no step follows, and
`run()` returns normally (R97). That the step of a halted core is the host's fault `halted` is the model's choice, log 2;
that no step exists there is the spec's decision D11. -/
def Obligations.OnlyHltEndsARunNormally : Prop :=
  ∀ s : State, s.run = .running →
    ((∃ t, step s = .next t ∧ t.run = .halted) ↔ s.pc < 256 ∧ s.mem.read s.pc = 0x01#8) ∧
    (s.pc < 256 → s.mem.read s.pc = 0x01#8 →
      step s = .next { s with run := .halted } ∧
      step { s with run := .halted } = .fault .halted ∧
      run s = { s with run := .halted } ∧ runResult (run s).run = some .returned)

/-- No step follows a failure, so no second failure can follow a first and there is no return (R132). That the step of a
failed core is the host's fault by name is the model's choice, log 2; that `run` of it executes no step and gives the
same failure is the spec's decision D11. -/
def Obligations.NoStepFollowsAFailure : Prop :=
  ∀ (s : State) (f : Failure), s.run = .faulted f →
    step s = .fault (.faulted f) ∧ (∀ n t, StepsTo n s t → n = 0 ∧ t = s) ∧
    run s = s ∧ runResult (run s).run = some (.failed f)

/-- Memory does not change during a step or a run (R43). -/
def Obligations.MemoryIsConstantDuringARun : Prop :=
  (∀ s t : State, step s = .next t → t.mem = s.mem) ∧ (∀ s : State, (run s).mem = s.mem)

/-- Control flow is strictly sequential: a step that leaves the core running moves the program counter on by 2 or 3, and
one that ends the run leaves it where it was (R26, R99; that failures leave it is the spec's decision D6). -/
def Obligations.ControlFlowIsStrictlySequential : Prop :=
  ∀ s t : State, step s = .next t →
    (t.run = .running → t.pc = s.pc + 2 ∨ t.pc = s.pc + 3) ∧ (t.run ≠ .running → t.pc = s.pc)

/-- Only PRN changes the output sequence, and it adds the value of its register at the end (R29; the sequence is the
spec's decision D10). -/
def Obligations.OnlyPrnAddsOutput : Prop :=
  ∀ s t : State, step s = .next t →
    t.out = s.out ∨
      (s.mem.read s.pc = 0x47#8 ∧ t.run = .running ∧
        ∃ h : (s.mem.read (s.pc + 1)).toNat < 8, t.out = s.out ++ [s.x[(s.mem.read (s.pc + 1)).toNat]])

/-- Only LDI and MUL change a register, and only the one their first operand byte names (R22). -/
def Obligations.OnlyLdiAndMulWriteARegister : Prop :=
  ∀ (s t : State) (k : Nat) (_ : k < 8), step s = .next t → t.x[k] ≠ s.x[k] →
    (s.mem.read s.pc = 0x82#8 ∨ s.mem.read s.pc = 0xA2#8) ∧ k = (s.mem.read (s.pc + 1)).toNat

/-- The output sequence is never read: a step does the same whatever was emitted before it (R29). -/
def Obligations.OutputIsNeverRead : Prop :=
  ∀ (s : State) (p : List Byte),
    step { s with out := p ++ s.out } = mapNext (fun t => { t with out := p ++ t.out }) (step s)

/-- Bytes that are not fetched have no effect: a step is the same over every memory that agrees on the bytes the step
fetches (R73). -/
def Obligations.UnfetchedBytesHaveNoEffect : Prop :=
  ∀ (s : State) (m : Memory), (∀ k < fetchedBytes s, m.read (s.pc + k) = s.mem.read (s.pc + k)) →
    step { s with mem := m } = mapNext (fun t => { t with mem := m }) (step s)

/-! ### Failures -/

/-- A failed step changes nothing but the run state, and the failures a step can raise are three, with the information
of the table of R120: the spec's decisions D6 and D8. -/
def Obligations.FailedStepChangesOnlyTheRunState : Prop :=
  ∀ (s t : State) (f : Failure), s.run = .running → step s = .next t → t.run = .faulted f →
    t = { s with run := .faulted f } ∧
    ((∃ a, f = .addressOutOfRange .mem a ∧ 256 ≤ a) ∨ (∃ i, f = .addressOutOfRange .reg i ∧ 8 ≤ i ∧ i ≤ 255) ∨
      ∃ op p, f = .illegalInstruction op p)

/-- The cases of R122, and no others: during a run the out-of-range address is always 256, and it is met at an opcode
fetch at 256, by PRN, LDI or MUL at 255, or by LDI or MUL at 254. The order of the operand fetches is the spec's
decision D7. -/
def Obligations.MemoryFailureOnlyAtTheEndOfMemory : Prop :=
  ∀ (s t : State) (a : Nat), s.run = .running → s.pc ≤ 256 → step s = .next t →
    (t.run = .faulted (.addressOutOfRange .mem a) ↔ a = 256 ∧
      (s.pc = 256 ∨
        (s.pc = 255 ∧ (s.mem.read 255 = 0x47#8 ∨ s.mem.read 255 = 0x82#8 ∨ s.mem.read 255 = 0xA2#8)) ∨
        (s.pc = 254 ∧ (s.mem.read 254 = 0x82#8 ∨ s.mem.read 254 = 0xA2#8))))

/-- A register-index operand of 8..255 fails with its own value, after every operand byte of the instruction has been
fetched and before any write or emission; and a step fails so in no other case. A step whose instruction has no such
operand, LDI with any immediate too, does not fail (R123, R72). That the first bad index in operand order is the one
reported is the spec's decision D7, that only the run state changes D6, the space tag D8, the unmasked index D9. -/
def Obligations.RegisterFailureExactlyOnABadIndex : Prop :=
  ∀ (s : State) (ix : Nat), s.run = .running →
    (step s = .next { s with run := .faulted (.addressOutOfRange .reg ix) } ↔
      ∃ i : Instr, bytesAt s.mem s.pc (encode i) = true ∧ firstBadIndex i = some ix) ∧
    (∀ t, step s = .next t → t.run = .faulted (.addressOutOfRange .reg ix) →
      t = { s with run := .faulted (.addressOutOfRange .reg ix) } ∧ 8 ≤ ix ∧ ix ≤ 255) ∧
    (∀ (i : Instr) (t : State) (f : Failure), bytesAt s.mem s.pc (encode i) = true → firstBadIndex i = none →
      step s = .next t → t.run ≠ .faulted f)

/-- An unrecognised opcode byte fails with the byte and the address it was fetched from, whatever follows it, and in no
other case does a step fail so. The failure in place of the reference's hang is the spec's decision D4. -/
def Obligations.IllegalOpcodeFailsByName : Prop :=
  ∀ (s : State) (op : Byte) (p : Nat), s.run = .running →
    (step s = .next { s with run := .faulted (.illegalInstruction op p) } ↔
      s.pc < 256 ∧ p = s.pc ∧ op = s.mem.read s.pc ∧
        op ≠ 0x01#8 ∧ op ≠ 0x47#8 ∧ op ≠ 0x82#8 ∧ op ≠ 0xA2#8)

/-- A core that runs into an unwritten cell, and a core that was given no program, fail at the zero byte they find
(R102; the spec's decision D4). -/
def Obligations.UnloadedMemoryEndsTheRun : Prop :=
  (∀ s : State, s.run = .running → s.pc < 256 → s.mem.read s.pc = 0 →
    step s = .next { s with run := .faulted (.illegalInstruction 0 s.pc) }) ∧
  run State.reset = { State.reset with run := .faulted (.illegalInstruction 0 0) }

/-! ### The ALU -/

/-- R82 to R85 and R89: the value each operation writes. The reductions modulo 256 and the truncating division are the
spec's decisions D1, D2 and D3. -/
def Obligations.AluWritesTheResult : Prop :=
  ∀ (st : State) (d s : Byte) (_ : d.toNat < 8) (_ : s.toNat < 8),
    (∃ t, alu .add d s st = .ok t ∧ t.x[d.toNat].toNat = (st.x[d.toNat].toNat + st.x[s.toNat].toNat) % 256) ∧
    (∃ t, alu .sub d s st = .ok t ∧
      (t.x[d.toNat].toNat : Int) = ((st.x[d.toNat].toNat : Int) - st.x[s.toNat].toNat) % 256) ∧
    (∃ t, alu .mul d s st = .ok t ∧ t.x[d.toNat].toNat = (st.x[d.toNat].toNat * st.x[s.toNat].toNat) % 256) ∧
    (st.x[s.toNat] ≠ 0 →
      ∃ t, alu .div d s st = .ok t ∧ t.x[d.toNat].toNat = st.x[d.toNat].toNat / st.x[s.toNat].toNat)

/-- `DivisionByZero` is raised by the ALU's DIV when the source register holds 0, with the operation and the operands,
and no state is written; no other operation raises it, and no step does (R125). The tuple it carries is the spec's
decision D24. -/
def Obligations.DivisionByZeroOnlyInTheAlu : Prop :=
  (∀ (st : State) (d s : Byte) (_ : d.toNat < 8) (_ : s.toNat < 8), st.x[s.toNat] = 0 →
    alu .div d s st = .error (.divisionByZero .div d s st.x[d.toNat] 0)) ∧
  (∀ (st : State) (op op' : AluOp) (d s d' s' vd vs : Byte),
    alu op d s st = .error (.divisionByZero op' d' s' vd vs) → op = .div ∧ vs = 0) ∧
  (∀ (st t : State) (op : AluOp) (d s vd vs : Byte), st.run = .running → step st = .next t →
    t.run ≠ .faulted (.divisionByZero op d s vd vs))

/-- The ALU's index checks: the destination before the source, each with the whole operand byte (the order is the spec's
decision D7, the tag D8). -/
def Obligations.AluChecksDestinationThenSource : Prop :=
  ∀ (st : State) (op : AluOp) (d s : Byte),
    (8 ≤ d.toNat → alu op d s st = .error (.addressOutOfRange .reg d.toNat)) ∧
    (d.toNat < 8 → 8 ≤ s.toNat → alu op d s st = .error (.addressOutOfRange .reg s.toNat))

/-- The ALU has no other side effect than the write of its destination, and what it writes depends on the values of the
two registers alone (R80; the order of its checks, D7, plays no part here). -/
def Obligations.AluTouchesOnlyItsDestination : Prop :=
  (∀ (st t : State) (op : AluOp) (d s : Byte), alu op d s st = .ok t →
    t.mem = st.mem ∧ t.pc = st.pc ∧ t.run = st.run ∧ t.out = st.out ∧
    ∀ k (_ : k < 8), k ≠ d.toNat → t.x[k] = st.x[k]) ∧
  (∀ (st st' t t' : State) (op : AluOp) (d s : Byte) (_ : d.toNat < 8) (_ : s.toNat < 8),
    st'.x[d.toNat] = st.x[d.toNat] → st'.x[s.toNat] = st.x[s.toNat] →
    alu op d s st = .ok t → alu op d s st' = .ok t' → t'.x[d.toNat] = t.x[d.toNat])

/-- Source and destination may be one register: ADD doubles, SUB gives 0, MUL squares, DIV gives 1 or, of a register
that holds 0, fails (R87; modulo 256 by the spec's decisions D1 and D3). -/
def Obligations.AluOnOneRegisterTwice : Prop :=
  ∀ (st : State) (d : Byte) (_ : d.toNat < 8),
    (∃ t, alu .add d d st = .ok t ∧ t.x[d.toNat].toNat = (2 * st.x[d.toNat].toNat) % 256) ∧
    (∃ t, alu .sub d d st = .ok t ∧ t.x[d.toNat] = 0) ∧
    (∃ t, alu .mul d d st = .ok t ∧ t.x[d.toNat].toNat = (st.x[d.toNat].toNat ^ 2) % 256) ∧
    (st.x[d.toNat] ≠ 0 → ∃ t, alu .div d d st = .ok t ∧ t.x[d.toNat] = 1) ∧
    (st.x[d.toNat] = 0 → alu .div d d st = .error (.divisionByZero .div d d 0 0))

/-- The operations by symbol: the four names, and every other symbol fails with `UnsupportedOperation` naming it (R86;
that no step can raise it is the spec's decision D19; the symbol as a string is log 8). -/
def Obligations.UnknownAluSymbolIsUnsupported : Prop :=
  (∀ (d s : Byte) (st : State), aluApply "ADD" d s st = alu .add d s st ∧ aluApply "SUB" d s st = alu .sub d s st ∧
    aluApply "MUL" d s st = alu .mul d s st ∧ aluApply "DIV" d s st = alu .div d s st) ∧
  (∀ (y : String) (d s : Byte) (st : State), y ≠ "ADD" → y ≠ "SUB" → y ≠ "MUL" → y ≠ "DIV" →
    aluApply y d s st = .error (.unsupportedOperation y)) ∧
  (∀ (st t : State) (y : String), st.run = .running → step st = .next t →
    t.run ≠ .faulted (.unsupportedOperation y))

/-! ### Registers, memory, reset -/

/-- Every access to the register file checks the whole index byte and masks nothing (R23; the spec's decisions D8 and
D9). -/
def Obligations.RegisterAccessChecksTheWholeIndex : Prop :=
  ∀ (s : State) (i v : Byte),
    (∀ _ : i.toNat < 8, regRead i s = .ok s.x[i.toNat] ∧
      ∃ t, regWrite i v s = .ok t ∧ regRead i t = .ok v ∧
        (∀ j : Byte, j ≠ i → regRead j t = regRead j s) ∧
        t.mem = s.mem ∧ t.pc = s.pc ∧ t.run = s.run ∧ t.out = s.out) ∧
    (8 ≤ i.toNat → regRead i s = .error (.addressOutOfRange .reg i.toNat) ∧
      regWrite i v s = .error (.addressOutOfRange .reg i.toNat))

/-- `MemWrite` checks the address, then the value, then sets that one cell and changes nothing else; and no instruction
calls it (R42). That it keeps memory in canonical form is a fact of the model's representation, log 3; the values are
natural numbers by log 4; the space tag of the failure is the spec's decision D8. -/
def Obligations.MemWriteChecksThenSetsOneCell : Prop :=
  (∀ (s : State) (a v : Nat),
    (256 ≤ a → memWrite a v s = .error (.addressOutOfRange .mem a)) ∧
    (a < 256 → 255 < v → memWrite a v s = .error (.invalidOperand v)) ∧
    (a < 256 → v ≤ 255 → s.mem.wf = true → ∃ t, memWrite a v s = .ok t ∧ (t.mem.read a).toNat = v ∧
      (∀ b, b ≠ a → t.mem.read b = s.mem.read b) ∧ t.mem.wf = true ∧
      t.x = s.x ∧ t.pc = s.pc ∧ t.run = s.run ∧ t.out = s.out)) ∧
  (∀ s t : State, step s = .next t → t.mem = s.mem)

/-- A memory in canonical form is fixed by what it reads: two that read alike at every address are equal data, and no
address from 256 on is listed (the model's representation, log 3). -/
def Obligations.CanonicalMemoryIsFixedByItsReads : Prop :=
  (∀ m m' : Memory, m.wf = true → m'.wf = true → (∀ a, m.read a = m'.read a) → m = m') ∧
  (∀ (m : Memory) (a : Nat), m.wf = true → 256 ≤ a → m.read a = 0)

/-- After reset all memory cells and all registers hold 0, the program counter is 0, the core runs and the output
sequence is empty; the first fetch reads cell 0; a register that nothing has written reads 0 (R34, R150). That a zero
byte fetched there is an illegal instruction is the spec's decision D4. -/
def Obligations.ResetClearsEverything : Prop :=
  (∀ a, a < 256 → memRead a State.reset = .ok 0) ∧
  (∀ i : Byte, i.toNat < 8 → regRead i State.reset = .ok 0) ∧
  State.reset.pc = 0 ∧ State.reset.run = .running ∧ State.reset.out = [] ∧
  (∀ s : State, s.pc = State.reset.pc → s.mem.read 0 = 0 → fetch s = .error (.illegalInstruction 0 0)) ∧
  (∀ s : State, s.pc = State.reset.pc → s.mem.read 0 = 0x01#8 → fetch s = .ok .hlt)

/-! ### Invariants -/

/-- The invariant of R35 holds after reset. -/
def Obligations.ResetMeetsTheInvariant : Prop := State.reset.Inv

/-- Every step keeps the invariant of R35, from every state that meets it (that failures leave the program counter is
the spec's decision D6). -/
def Obligations.EveryStepKeepsTheInvariant : Prop :=
  ∀ s t : State, s.Inv → step s = .next t → t.Inv

/-- A successful `load` on a running core keeps the invariant. -/
def Obligations.LoadKeepsTheInvariant : Prop :=
  ∀ (image : List Nat) (s t : State), s.Inv → s.run = .running → load image s = .ok t → t.Inv

/-- R35 over every reachable state: whatever image the host loads, after any number of steps the invariant holds, and at
most 128 values have been emitted (R101). -/
def Obligations.ReachableStatesMeetTheInvariant : Prop :=
  ∀ (image : List Nat) (s t : State) (n : Nat), s = State.reset ∨ load image State.reset = .ok s → StepsTo n s t →
    t.Inv ∧ t.out.length ≤ 128

/-! ### The run and the host -/

/-- Every run ends, from every state of the machine, within 129 steps: `run()` is the state those steps lead to, it is
not running, no more steps than that exist, and at most 128 values are emitted (R100, R101). It rests on the spec's
decision D4. -/
def Obligations.EveryRunEndsWithin129Steps : Prop :=
  ∀ s : State, (∃ n, n ≤ 129 ∧ StepsTo n s (run s)) ∧ (run s).run ≠ .running ∧
    (∀ m t, StepsTo m s t → m ≤ 129) ∧ (run s).out.length ≤ s.out.length + 128

/-- `run()` steps from the current state, which after reset and `load` has the program counter 0, and comes back when the
run state is Halted or a failure: normally for the one, with that failure for the other (R158). That it comes back from
every state rests on the bound of R101, so on the spec's decision D4, and on log 6; that it executes no step on a core
that has ended is the spec's decision D11. -/
def Obligations.RunComesBackWithTheEndOfTheRun : Prop :=
  ∀ s : State, (∃ n, StepsTo n s (run s)) ∧
    ((run s).run = .halted ∧ runResult (run s).run = some .returned ∨
      ∃ f, (run s).run = .faulted f ∧ runResult (run s).run = some (.failed f)) ∧
    (∀ image, s = State.reset ∨ load image State.reset = .ok s → s.pc = 0)

/-- The host's own interface runs the same machine: from every state, 130 or more of its steps stop with the name of the
run's end, and are never refused (the ends as outcomes: log 2). -/
def Obligations.HostInterfaceRunStopsAtTheEndOfTheRun : Prop :=
  ∀ (s : State) (k : Nat), 130 ≤ k →
    ((run s).run = .halted ∧ Host.Core.run Sys2Proof.core k s = .fault .halted) ∨
      ∃ f, (run s).run = .faulted f ∧ Host.Core.run Sys2Proof.core k s = .fault (.faulted f)

/-- `load` installs the image at address 0 and leaves everything else: the other cells, the registers, the program
counter, the run state, the output. An image of 256 bytes fits and an empty one is accepted (R155; the spec's decisions
D12 and D20). -/
def Obligations.LoadInstallsTheImage : Prop :=
  ∀ (image : List Nat) (s : State), image.length ≤ 256 → (∀ v ∈ image, v ≤ 255) → s.mem.wf = true →
    ∃ t, load image s = .ok t ∧
      (∀ k (h : k < image.length), (t.mem.read k).toNat = image[k]) ∧
      (∀ a, image.length ≤ a → t.mem.read a = s.mem.read a) ∧
      t.x = s.x ∧ t.pc = s.pc ∧ t.run = s.run ∧ t.out = s.out

/-- `load` fails whole: more than 256 values is `ProgramTooLarge`, whatever they are; otherwise the first value above
255 is `InvalidOperand` of it; and the session's core is then exactly as before (R156; the spec's decision D12). -/
def Obligations.LoadFailsWithNoPartialWrite : Prop :=
  (∀ (image : List Nat) (s : State), 256 < image.length → load image s = .error .programTooLarge) ∧
  (∀ (front back : List Nat) (v : Nat) (s : State), (front ++ v :: back).length ≤ 256 → (∀ u ∈ front, u ≤ 255) →
    255 < v → load (front ++ v :: back) s = .error (.invalidOperand v)) ∧
  (∀ (image : List Nat) (h : Session) (f : Failure), h.phase = .constructed → load image h.core = .error f →
    h.load image = .next ({ h with phase := .loadFailed }, some f))

/-- The host loads once, after reset and before `run`: every other `load` is refused by name, and so is `run` after a
`load` that failed (R156, R157; the spec's decision D12; log 5). -/
def Obligations.LoadIsAcceptedOncePerReset : Prop :=
  ∀ (image : List Nat) (h : Session),
    ((∃ a, h.load image = .next a) ↔ h.phase = .constructed) ∧
    (h.phase ≠ .constructed → h.load image = .refused .loadNotDescribed) ∧
    (∀ h' r, h.load image = .next (h', r) → ∀ image', h'.load image' = .refused .loadNotDescribed) ∧
    (h.run = .refused .runAfterFailedLoad ↔ h.phase = .loadFailed)

/-- A second `run()` executes no step and gives the same outcome again (R159; the spec's decision D11). -/
def Obligations.RunAgainChangesNothing : Prop :=
  (∀ s : State, run (run s) = run s) ∧
  (∀ (h h' : Session) (r : Option RunResult), h.run = .next (h', r) →
    h'.phase = .ended ∧ r ≠ none ∧ h'.run = .next (h', r))

/-- `trace` reports the program counter, the three cells from it on and the registers, and reads nothing else; a cell
from 256 on is reported as absent, and the window has no fourth cell (R160; which cells is the spec's decision D15; the
snapshot as data without text is log 10). -/
def Obligations.TraceReadsTheWindowOnly : Prop :=
  (∀ s : State, (trace s).pc = s.pc ∧ (trace s).regs = s.x ∧ (trace s).window.length = 3) ∧
  (∀ s t : State, t.pc = s.pc → t.x = s.x → (∀ k < 3, t.mem.read (s.pc + k) = s.mem.read (s.pc + k)) →
    trace t = trace s) ∧
  (∀ (s : State) (k : Nat), k < 3 →
    (s.pc + k < 256 → (trace s).window[k]? = some (some (s.mem.read (s.pc + k)))) ∧
    (256 ≤ s.pc + k → (trace s).window[k]? = some none))

/-- The host's lines: line `k` is the decimal digits of the `k`-th value emitted, and every emitted value has its line.
They stay in order: a step emits nothing and leaves the lines, or emits one value and adds exactly its line at the end;
a run adds, at the end, exactly the lines of the values it emits (R161, R29; the sequence of values is the spec's
decision D10, a line without its end log 10). -/
def Obligations.OutputLinesStayInOrder : Prop :=
  (∀ s : State, outLines s = s.out.map fun v => Nat.repr v.toNat) ∧
  (∀ s t : State, step s = .next t →
    (t.out = s.out ∧ outLines t = outLines s) ∨
      ∃ v : Byte, t.out = s.out ++ [v] ∧ outLines t = outLines s ++ [Nat.repr v.toNat]) ∧
  (∀ s : State, ∃ more : List Byte,
    (run s).out = s.out ++ more ∧ outLines (run s) = outLines s ++ more.map fun v => Nat.repr v.toNat)
end

