-- ==== Sys2Proof/Laws/Decode.lean ====
section
/-! SUPPORT. The opcode table as a chain of equalities, and what the decoder can answer. -/

namespace Sys2Proof

theorem Opcode.ofByte_eq (b : Byte) :
    Opcode.ofByte b = if b = 0x01#8 then some .hlt else if b = 0x82#8 then some .ldi
      else if b = 0x47#8 then some .prn else if b = 0xA2#8 then some .mul else none := by
  have e (o : Opcode) : (o.pattern == b) = decide (b = o.pattern) := by
    rw [Bool.eq_iff_iff, beq_iff_eq, decide_eq_true_iff, eq_comm]
  simp only [Opcode.ofByte, Opcode.table, List.find?]
  simp only [e]
  simp only [Opcode.pattern]
  by_cases h1 : b = 0b00000001#8
  · subst h1; rfl
  by_cases h2 : b = 0b10000010#8
  · subst h2; rfl
  by_cases h3 : b = 0b01000111#8
  · subst h3; rfl
  by_cases h4 : b = 0b10100010#8
  · subst h4; rfl
  simp only [h1, h2, h3, h4, decide_false, if_false]

@[simp] theorem Opcode.ofByte_pattern (o : Opcode) : Opcode.ofByte o.pattern = some o := by
  cases o <;> decide

theorem Opcode.pattern_of_ofByte {b : Byte} {o : Opcode} (h : Opcode.ofByte b = some o) : b = o.pattern := by
  exact (eq_of_beq (List.find?_some h :)).symm

/-- Everything the decoder can answer with an instruction: the opcode byte and the operand bytes it has read are the
instruction's. -/
theorem decodeWith_ok {ε : Type} {read : Nat → Except ε Byte} {ill : Byte → ε} {i : Instr} :
    decodeWith read ill = .ok i ↔ ∀ k (h : k < (encode i).length), read k = .ok ((encode i)[k]) := by
  constructor
  · intro h
    unfold decodeWith at h
    simp only [bind, Except.bind] at h
    split at h
    · cases h
    next op hop =>
    split at h
    · cases h
    · next ho =>
      cases h
      have := Opcode.pattern_of_ofByte ho
      intro k hk
      have : k = 0 := by simp [encode] at hk; omega
      subst this; simp_all [encode]
    · next ho =>
      have := Opcode.pattern_of_ofByte ho
      split at h
      · cases h
      split at h
      · cases h
      cases h
      intro k hk
      simp only [encode, List.length_cons, List.length_nil] at hk
      obtain rfl | rfl | rfl : k = 0 ∨ k = 1 ∨ k = 2 := by omega
      all_goals simp_all [encode]
    · next ho =>
      have := Opcode.pattern_of_ofByte ho
      split at h
      · cases h
      cases h
      intro k hk
      simp only [encode, List.length_cons, List.length_nil] at hk
      obtain rfl | rfl : k = 0 ∨ k = 1 := by omega
      all_goals simp_all [encode]
    · next ho =>
      have := Opcode.pattern_of_ofByte ho
      split at h
      · cases h
      split at h
      · cases h
      cases h
      intro k hk
      simp only [encode, List.length_cons, List.length_nil] at hk
      obtain rfl | rfl | rfl : k = 0 ∨ k = 1 ∨ k = 2 := by omega
      all_goals simp_all [encode]
  · intro h
    cases i with
    | hlt =>
      have h0 := h 0 (by simp [encode])
      simp [encode] at h0
      simp [decodeWith, bind, Except.bind, h0]
    | ldi r imm =>
      have h0 := h 0 (by simp [encode]); have h1 := h 1 (by simp [encode]); have h2 := h 2 (by simp [encode])
      simp [encode] at h0 h1 h2
      simp [decodeWith, bind, Except.bind, h0, h1, h2]
    | prn r =>
      have h0 := h 0 (by simp [encode]); have h1 := h 1 (by simp [encode])
      simp [encode] at h0 h1
      simp [decodeWith, bind, Except.bind, h0, h1]
    | mul a b =>
      have h0 := h 0 (by simp [encode]); have h1 := h 1 (by simp [encode]); have h2 := h 2 (by simp [encode])
      simp [encode] at h0 h1 h2
      simp [decodeWith, bind, Except.bind, h0, h1, h2]

end Sys2Proof
end

