-- ==== Sys2Proof/Laws/Memory.lean ====
section
/-! SUPPORT. Memory as a canonical list: reads after writes, and every memory operation keeps the canonical form. -/

namespace Sys2Proof.Machine

@[simp] theorem Memory.read_nil (k : Nat) : Memory.read [] k = 0 := rfl

theorem Memory.wfFrom_cons {lo a : Nat} {v : Byte} {m : Memory} :
    Memory.wfFrom lo ((a, v) :: m) = true ↔
      lo ≤ a ∧ a < 256 ∧ v ≠ 0 ∧ Memory.wfFrom (a + 1) m = true := by
  simp [Memory.wfFrom, and_assoc]

theorem Memory.wfFrom_mono {m : Memory} {lo lo' : Nat} (h : Memory.wfFrom lo m = true) (hl : lo' ≤ lo) :
    Memory.wfFrom lo' m = true := by
  cases m with
  | nil => rfl
  | cons c m =>
    obtain ⟨a, v⟩ := c
    rw [wfFrom_cons] at h ⊢
    exact ⟨by omega, h.2⟩

/-- An address below every listed one reads as unwritten. -/
theorem Memory.read_below {m : Memory} {lo k : Nat} (h : Memory.wfFrom lo m = true) (hk : k < lo) : m.read k = 0 := by
  induction m generalizing lo with
  | nil => rfl
  | cons c m ih =>
    obtain ⟨a, v⟩ := c
    rw [wfFrom_cons] at h
    simp only [Memory.read, if_neg (show a ≠ k by omega)]
    exact ih h.2.2.2 (by omega)

theorem Memory.read_insert (m : Memory) (k j : Nat) (v : Byte) :
    (m.insert k v).read j = if k = j then v else m.read j := by
  induction m with
  | nil => simp [Memory.insert, Memory.read]
  | cons c m ih =>
    obtain ⟨a, u⟩ := c
    simp only [Memory.insert]
    split
    · simp [Memory.read]
    · split
      · next h => subst h; simp only [Memory.read]; split <;> rfl
      · next h => simp only [Memory.read, ih]; split <;> split <;> first | rfl | omega

theorem Memory.read_erase_ne (m : Memory) {k j : Nat} (h : j ≠ k) : (m.erase k).read j = m.read j := by
  induction m with
  | nil => rfl
  | cons c m ih =>
    obtain ⟨a, u⟩ := c
    simp only [Memory.erase]
    split
    · next e => simp [Memory.read, show a ≠ j by omega]
    · simp [Memory.read, ih]

theorem Memory.read_erase_same {m : Memory} {lo : Nat} (h : Memory.wfFrom lo m = true) (k : Nat) :
    (m.erase k).read k = 0 := by
  induction m generalizing lo with
  | nil => rfl
  | cons c m ih =>
    obtain ⟨a, u⟩ := c
    rw [wfFrom_cons] at h
    simp only [Memory.erase]
    split
    · exact read_below h.2.2.2 (by omega)
    · next e => simp only [Memory.read, if_neg e]; exact ih h.2.2.2

/-- Reading the address just written gives the value written. -/
theorem Memory.read_write_same {m : Memory} (h : m.wf = true) (k : Nat) (v : Byte) : (m.write k v).read k = v := by
  unfold Memory.write
  split
  · next e => rw [read_erase_same h, e]
  · simp [read_insert]

/-- A write leaves every other address as it was. -/
theorem Memory.read_write_ne (m : Memory) {k j : Nat} (v : Byte) (h : j ≠ k) : (m.write k v).read j = m.read j := by
  unfold Memory.write
  split
  · exact read_erase_ne m h
  · simp [read_insert, h.symm]

theorem Memory.wfFrom_erase {m : Memory} {lo : Nat} (h : Memory.wfFrom lo m = true) (k : Nat) :
    Memory.wfFrom lo (m.erase k) = true := by
  induction m generalizing lo with
  | nil => rfl
  | cons c m ih =>
    obtain ⟨a, u⟩ := c
    rw [wfFrom_cons] at h
    simp only [Memory.erase]
    split
    · exact wfFrom_mono h.2.2.2 (by omega)
    · exact wfFrom_cons.2 ⟨h.1, h.2.1, h.2.2.1, ih h.2.2.2⟩

theorem Memory.wfFrom_insert {m : Memory} {lo k : Nat} {v : Byte} (h : Memory.wfFrom lo m = true) (hl : lo ≤ k)
    (hk : k < 256) (hv : v ≠ 0) : Memory.wfFrom lo (m.insert k v) = true := by
  induction m generalizing lo with
  | nil => exact wfFrom_cons.2 ⟨hl, hk, hv, rfl⟩
  | cons c m ih =>
    obtain ⟨a, u⟩ := c
    have hc := h
    rw [wfFrom_cons] at h
    simp only [Memory.insert]
    split
    · next lt => exact wfFrom_cons.2 ⟨hl, hk, hv, wfFrom_cons.2 ⟨by omega, h.2⟩⟩
    · split
      · next e => subst e; exact wfFrom_cons.2 ⟨hl, hk, hv, h.2.2.2⟩
      · exact wfFrom_cons.2 ⟨h.1, h.2.1, h.2.2.1, ih h.2.2.2 (by omega)⟩

/-- A write inside memory keeps the canonical form. -/
theorem Memory.wf_write {m : Memory} (h : m.wf = true) {k : Nat} (hk : k < 256) (v : Byte) :
    (m.write k v).wf = true := by
  unfold Memory.write
  split
  · exact wfFrom_erase h k
  · next hv => exact wfFrom_insert h (by omega) hk hv

theorem wf_placeBytes {bs : List Byte} {m : Memory} (h : m.wf = true) (a : Nat) : (placeBytes bs a m).wf = true := by
  induction bs generalizing a m with
  | nil => exact h
  | cons b bs ih =>
    simp only [placeBytes]
    split
    · next hk => exact ih (Memory.wf_write h hk b) _
    · exact ih h _

/-- Everything a write through `MemWrite` can do, where it answers a state. -/
theorem memWrite_ok {a v : Nat} {s t : State} (h : memWrite a v s = .ok t) :
    a < 256 ∧ v ≤ 255 ∧ t = { s with mem := s.mem.write a (BitVec.ofNat 8 v) } := by
  unfold memWrite at h
  split at h
  · cases h
  · split at h
    · cases h
    · next h1 h2 => cases h; exact ⟨by simpa using h1, by omega, rfl⟩

/-- The reset memory is in canonical form. -/
theorem wf_reset : State.reset.mem.wf = true := rfl

/-- Everything `writeImage` can do, where it answers a state: only memory changes, and it stays canonical. -/
theorem writeImage_ok {vs : List Nat} {a : Nat} {s t : State} (h : writeImage vs a s = .ok t) :
    t = { s with mem := t.mem } ∧ (s.mem.wf = true → t.mem.wf = true) := by
  induction vs generalizing a s with
  | nil => cases h; exact ⟨rfl, id⟩
  | cons v vs ih =>
    simp only [writeImage, bind, Except.bind] at h
    split at h
    · cases h
    · next u hu =>
      obtain ⟨ha, hv, rfl⟩ := memWrite_ok hu
      obtain ⟨e, hw⟩ := ih h
      refine ⟨by rw [e], fun hs => hw (Memory.wf_write hs ha _)⟩

/-- A successful `load` changes memory alone and keeps its canonical form. -/
theorem load_ok {image : List Nat} {s t : State} (h : load image s = .ok t) :
    image.length ≤ 256 ∧ firstInvalid image = none ∧ writeImage image 0 s = .ok t := by
  unfold load at h
  split at h
  · cases h
  · next hl =>
    split at h
    · cases h
    · next hn => exact ⟨by simpa using hl, hn, h⟩

end Sys2Proof.Machine
end

