-- ==== Sys2Proof/Laws/State.lean ====
section
/-! SUPPORT. One lemma per field and update of `State`, so that no later proof unfolds a record update. -/

namespace Sys2Proof.Machine

@[simp] theorem State.setReg_mem (s : State) (k : Fin 8) (v : Byte) : (s.setReg k v).mem = s.mem := rfl
@[simp] theorem State.setReg_pc (s : State) (k : Fin 8) (v : Byte) : (s.setReg k v).pc = s.pc := rfl
@[simp] theorem State.setReg_run (s : State) (k : Fin 8) (v : Byte) : (s.setReg k v).run = s.run := rfl
@[simp] theorem State.setReg_out (s : State) (k : Fin 8) (v : Byte) : (s.setReg k v).out = s.out := rfl
@[simp] theorem State.setReg_x (s : State) (k : Fin 8) (v : Byte) : (s.setReg k v).x = s.x.set k v := rfl

@[simp] theorem State.emit_mem (s : State) (v : Byte) : (s.emit v).mem = s.mem := rfl
@[simp] theorem State.emit_x (s : State) (v : Byte) : (s.emit v).x = s.x := rfl
@[simp] theorem State.emit_pc (s : State) (v : Byte) : (s.emit v).pc = s.pc := rfl
@[simp] theorem State.emit_run (s : State) (v : Byte) : (s.emit v).run = s.run := rfl
@[simp] theorem State.emit_out (s : State) (v : Byte) : (s.emit v).out = s.out ++ [v] := rfl

@[simp] theorem State.advance_mem (s : State) (n : Nat) : (s.advance n).mem = s.mem := rfl
@[simp] theorem State.advance_x (s : State) (n : Nat) : (s.advance n).x = s.x := rfl
@[simp] theorem State.advance_pc (s : State) (n : Nat) : (s.advance n).pc = s.pc + n := rfl
@[simp] theorem State.advance_run (s : State) (n : Nat) : (s.advance n).run = s.run := rfl
@[simp] theorem State.advance_out (s : State) (n : Nat) : (s.advance n).out = s.out := rfl

@[simp] theorem State.halt_mem (s : State) : s.halt.mem = s.mem := rfl
@[simp] theorem State.halt_x (s : State) : s.halt.x = s.x := rfl
@[simp] theorem State.halt_pc (s : State) : s.halt.pc = s.pc := rfl
@[simp] theorem State.halt_run (s : State) : s.halt.run = .halted := rfl
@[simp] theorem State.halt_out (s : State) : s.halt.out = s.out := rfl

@[simp] theorem State.raise_mem (s : State) (f : Failure) : (s.raise f).mem = s.mem := rfl
@[simp] theorem State.raise_x (s : State) (f : Failure) : (s.raise f).x = s.x := rfl
@[simp] theorem State.raise_pc (s : State) (f : Failure) : (s.raise f).pc = s.pc := rfl
@[simp] theorem State.raise_run (s : State) (f : Failure) : (s.raise f).run = .faulted f := rfl
@[simp] theorem State.raise_out (s : State) (f : Failure) : (s.raise f).out = s.out := rfl

/-- A register read after a register write. -/
theorem State.reg_setReg (s : State) (j k : Fin 8) (v : Byte) :
    (s.setReg k v).reg j = if k = j then v else s.reg j := by
  simp [State.reg, State.setReg, Vector.getElem_set, Fin.ext_iff]

end Sys2Proof.Machine
end

