-- ==== Sys2Proof/Laws/Ops.lean ====
section
/-! SUPPORT. One lemma per shared operation: everything it can answer. -/

namespace Sys2Proof.Machine

theorem memRead_of_lt {a : Nat} (s : State) (h : a < 256) : memRead a s = .ok (s.mem.read a) := by
  simp [memRead, h]

theorem memRead_of_ge {a : Nat} (s : State) (h : 256 ≤ a) : memRead a s = .error (.addressOutOfRange .mem a) := by
  simp [memRead, h]

theorem memRead_ok {a : Nat} {s : State} {v : Byte} : memRead a s = .ok v ↔ a < 256 ∧ s.mem.read a = v := by
  unfold memRead
  split
  · next h => simp; intro h'; simp at h; omega
  · next h => simp at h; simp [h]

theorem memRead_error {a : Nat} {s : State} {f : Failure} :
    memRead a s = .error f ↔ 256 ≤ a ∧ f = .addressOutOfRange .mem a := by
  unfold memRead
  split
  · next h => simp at h; simp [h, eq_comm]
  · next h => simp at h; simp; intro h'; omega

theorem regOperand_of_lt {i : Byte} (h : i.toNat < 8) : regOperand i = .ok ⟨i.toNat, h⟩ := by
  simp [regOperand, h]

theorem regOperand_of_ge {i : Byte} (h : 8 ≤ i.toNat) : regOperand i = .error (.addressOutOfRange .reg i.toNat) := by
  simp [regOperand, show ¬ i.toNat < 8 by omega]

theorem regRead_of_lt {i : Byte} (s : State) (h : i.toNat < 8) : regRead i s = .ok (s.reg ⟨i.toNat, h⟩) := by
  simp [regRead, regOperand_of_lt h, bind, Except.bind]

theorem regRead_of_ge {i : Byte} (s : State) (h : 8 ≤ i.toNat) :
    regRead i s = .error (.addressOutOfRange .reg i.toNat) := by
  simp [regRead, regOperand_of_ge h, bind, Except.bind]

theorem regWrite_of_lt {i : Byte} (v : Byte) (s : State) (h : i.toNat < 8) :
    regWrite i v s = .ok (s.setReg ⟨i.toNat, h⟩ v) := by
  simp [regWrite, regOperand_of_lt h, bind, Except.bind]

theorem regWrite_of_ge {i : Byte} (v : Byte) (s : State) (h : 8 ≤ i.toNat) :
    regWrite i v s = .error (.addressOutOfRange .reg i.toNat) := by
  simp [regWrite, regOperand_of_ge h, bind, Except.bind]

@[simp] theorem conclude_ok (s t : State) : conclude s (.ok t) = .next t := rfl
@[simp] theorem conclude_error (s : State) (f : Failure) : conclude s (.error f) = .next (s.raise f) := rfl

/-- The value of an exact result narrowed is its remainder modulo 256 (R9). -/
theorem narrow_toNat (v : Nat) : (narrow (v : Int)).toNat = v % 256 := by
  simp [narrow]

/-- The ALU on two registers that exist: its result, written to the destination. -/
theorem alu_of_lt {op : AluOp} {d s : Byte} (st : State) (hd : d.toNat < 8) (hs : s.toNat < 8) :
    alu op d s st =
      (aluResult op d s (st.reg ⟨d.toNat, hd⟩) (st.reg ⟨s.toNat, hs⟩)).map (st.setReg ⟨d.toNat, hd⟩) := by
  simp only [alu, regRead_of_lt st hd, regRead_of_lt st hs, bind, Except.bind]
  cases aluResult op d s (st.reg ⟨d.toNat, hd⟩) (st.reg ⟨s.toNat, hs⟩) <;> simp [Except.map, regWrite_of_lt _ _ hd]

end Sys2Proof.Machine
end

