-- ==== Sys2Proof/Laws/PerInstr.lean ====
section
/-! SUPPORT. Facts about every instruction as syntax, one lemma per constructor. -/

namespace Sys2Proof.Laws.EncodingShape

/-- The encoding of an instruction begins with its opcode's byte, has its opcode's length, and is at most three bytes
long (R60, R67). -/
def Statement (i : Instr) : Prop :=
  (encode i).head? = some i.opcode.pattern ∧ (encode i).length = i.length ∧ 1 ≤ i.length ∧ i.length ≤ maxInstrBytes

theorem hlt : Statement .hlt := ⟨rfl, rfl, by decide, by decide⟩
theorem ldi (r imm : Byte) : Statement (.ldi r imm) :=
  ⟨rfl, rfl, show 1 ≤ Opcode.ldi.length by decide, show Opcode.ldi.length ≤ maxInstrBytes by decide⟩
theorem prn (r : Byte) : Statement (.prn r) :=
  ⟨rfl, rfl, show 1 ≤ Opcode.prn.length by decide, show Opcode.prn.length ≤ maxInstrBytes by decide⟩
theorem mul (a b : Byte) : Statement (.mul a b) :=
  ⟨rfl, rfl, show 1 ≤ Opcode.mul.length by decide, show Opcode.mul.length ≤ maxInstrBytes by decide⟩

end Sys2Proof.Laws.EncodingShape
end

