-- ==== Sys2Proof/Laws/Step.lean ====
section
/-! SUPPORT. What each meaning and one step can do, said once: a step's next state comes from one of a few cases. -/

namespace Sys2Proof.Machine

/-- Everything LDI can answer. -/
theorem execLdi_cases (r imm : Byte) (s : State) :
    (∃ h : r.toNat < 8, execLdi r imm s = .next ((s.setReg ⟨r.toNat, h⟩ imm).advance 3)) ∨
    (8 ≤ r.toNat ∧ execLdi r imm s = .next (s.raise (.addressOutOfRange .reg r.toNat))) := by
  by_cases h : r.toNat < 8
  · exact .inl ⟨h, by simp [execLdi, regWrite_of_lt _ _ h, bind, Except.bind, immOperand, Opcode.length]⟩
  · exact .inr ⟨by omega, by simp [execLdi, regWrite_of_ge _ _ (show 8 ≤ r.toNat by omega), bind, Except.bind]⟩

/-- Everything PRN can answer. -/
theorem execPrn_cases (r : Byte) (s : State) :
    (∃ h : r.toNat < 8, execPrn r s = .next ((s.emit (s.reg ⟨r.toNat, h⟩)).advance 2)) ∨
    (8 ≤ r.toNat ∧ execPrn r s = .next (s.raise (.addressOutOfRange .reg r.toNat))) := by
  by_cases h : r.toNat < 8
  · exact .inl ⟨h, by simp [execPrn, regRead_of_lt _ h, bind, Except.bind, Opcode.length]⟩
  · exact .inr ⟨by omega, by simp [execPrn, regRead_of_ge _ (show 8 ≤ r.toNat by omega), bind, Except.bind]⟩

/-- Everything MUL can answer. -/
theorem execMul_cases (a b : Byte) (s : State) :
    (∃ (ha : a.toNat < 8) (hb : b.toNat < 8), execMul a b s =
      .next ((s.setReg ⟨a.toNat, ha⟩
        (narrow ((s.reg ⟨a.toNat, ha⟩).toNat * (s.reg ⟨b.toNat, hb⟩).toNat))).advance 3)) ∨
    (8 ≤ a.toNat ∧ execMul a b s = .next (s.raise (.addressOutOfRange .reg a.toNat))) ∨
    (a.toNat < 8 ∧ 8 ≤ b.toNat ∧ execMul a b s = .next (s.raise (.addressOutOfRange .reg b.toNat))) := by
  by_cases ha : a.toNat < 8
  · by_cases hb : b.toNat < 8
    · exact .inl ⟨ha, hb, by simp [execMul, alu_of_lt s ha hb, aluResult, Except.map, bind, Except.bind, Opcode.length]⟩
    · refine .inr (.inr ⟨ha, by omega, ?_⟩)
      simp [execMul, alu, regRead_of_lt _ ha, regRead_of_ge _ (show 8 ≤ b.toNat by omega), bind, Except.bind]
  · refine .inr (.inl ⟨by omega, ?_⟩)
    simp [execMul, alu, regRead_of_ge _ (show 8 ≤ a.toNat by omega), bind, Except.bind]

/-- Every way a running core can take a step, by the bytes at the program counter: the four instructions' effects, a
register index out of range, and the failures of fetching and decoding. -/
inductive StepCase (s : State) : State → Prop
  | hlt (hp : s.pc < 256) (hop : s.mem.read s.pc = 0x01#8) : StepCase s s.halt
  | ldi (r imm : Byte) (hp : s.pc + 2 < 256) (hop : s.mem.read s.pc = 0x82#8) (hr : s.mem.read (s.pc + 1) = r)
      (hi : s.mem.read (s.pc + 2) = imm) (h : r.toNat < 8) : StepCase s ((s.setReg ⟨r.toNat, h⟩ imm).advance 3)
  | prn (r : Byte) (hp : s.pc + 1 < 256) (hop : s.mem.read s.pc = 0x47#8) (hr : s.mem.read (s.pc + 1) = r)
      (h : r.toNat < 8) : StepCase s ((s.emit (s.reg ⟨r.toNat, h⟩)).advance 2)
  | mul (a b : Byte) (hp : s.pc + 2 < 256) (hop : s.mem.read s.pc = 0xA2#8) (ha : s.mem.read (s.pc + 1) = a)
      (hb : s.mem.read (s.pc + 2) = b) (h : a.toNat < 8) (h' : b.toNat < 8) :
      StepCase s ((s.setReg ⟨a.toNat, h⟩
        (narrow ((s.reg ⟨a.toNat, h⟩).toNat * (s.reg ⟨b.toNat, h'⟩).toNat))).advance 3)
  | firstIndex (r : Byte) (hp : s.pc + 1 < 256)
      (hop : s.mem.read s.pc = 0x47#8 ∨ (s.pc + 2 < 256 ∧ (s.mem.read s.pc = 0x82#8 ∨ s.mem.read s.pc = 0xA2#8)))
      (hr : s.mem.read (s.pc + 1) = r) (h : 8 ≤ r.toNat) : StepCase s (s.raise (.addressOutOfRange .reg r.toNat))
  | secondIndex (a b : Byte) (hp : s.pc + 2 < 256) (hop : s.mem.read s.pc = 0xA2#8) (ha : s.mem.read (s.pc + 1) = a)
      (hb : s.mem.read (s.pc + 2) = b) (h : a.toNat < 8) (h' : 8 ≤ b.toNat) :
      StepCase s (s.raise (.addressOutOfRange .reg b.toNat))
  | illegal (hp : s.pc < 256) (hop : Opcode.ofByte (s.mem.read s.pc) = none) :
      StepCase s (s.raise (.illegalInstruction (s.mem.read s.pc) s.pc))
  | opcodeFetch (hp : 256 ≤ s.pc) : StepCase s (s.raise (.addressOutOfRange .mem s.pc))
  | firstOperand (hp : s.pc = 255)
      (hop : s.mem.read s.pc = 0x47#8 ∨ s.mem.read s.pc = 0x82#8 ∨ s.mem.read s.pc = 0xA2#8) :
      StepCase s (s.raise (.addressOutOfRange .mem 256))
  | secondOperand (hp : s.pc = 254) (hop : s.mem.read s.pc = 0x82#8 ∨ s.mem.read s.pc = 0xA2#8) :
      StepCase s (s.raise (.addressOutOfRange .mem 256))

theorem step_of_not_running {s : State} (h : s.run ≠ .running) : ∃ r, stopped s.run = some r ∧ step s = .fault r := by
  unfold step
  cases hr : s.run with
  | running => exact absurd hr h
  | halted => exact ⟨_, rfl, rfl⟩
  | faulted f => exact ⟨_, rfl, rfl⟩

/-- One step of a running core: a next state, by one of the cases. -/
theorem step_of_running {s : State} (h : s.run = .running) : ∃ t, step s = .next t ∧ StepCase s t := by
  simp only [step, h, stopped, fetch, decodeWith, bind, Except.bind, Nat.add_zero]
  by_cases hp : s.pc < 256
  · simp only [memRead_of_lt s hp, Opcode.ofByte_eq]
    by_cases h1 : s.mem.read s.pc = 0x01#8
    · simp only [h1, if_true]
      exact ⟨_, rfl, .hlt hp h1⟩
    simp only [h1, if_false]
    by_cases h2 : s.mem.read s.pc = 0x82#8
    · simp only [h2, if_true]
      by_cases hp1 : s.pc + 1 < 256
      · simp only [memRead_of_lt s hp1]
        by_cases hp2 : s.pc + 2 < 256
        · simp only [memRead_of_lt s hp2, exec]
          rcases execLdi_cases (s.mem.read (s.pc + 1)) (s.mem.read (s.pc + 2)) s with ⟨h8, e⟩ | ⟨h8, e⟩ <;> rw [e]
          · exact ⟨_, rfl, .ldi _ _ hp2 h2 rfl rfl h8⟩
          · exact ⟨_, rfl, .firstIndex _ hp1 (.inr ⟨hp2, .inl h2⟩) rfl h8⟩
        · simp only [show s.pc + 2 = 256 by omega]
          exact ⟨_, rfl, .secondOperand (by omega) (.inl h2)⟩
      · simp only [show s.pc + 1 = 256 by omega]
        exact ⟨_, rfl, .firstOperand (by omega) (.inr (.inl h2))⟩
    simp only [h2, if_false]
    by_cases h3 : s.mem.read s.pc = 0x47#8
    · simp only [h3, if_true]
      by_cases hp1 : s.pc + 1 < 256
      · simp only [memRead_of_lt s hp1, exec]
        rcases execPrn_cases (s.mem.read (s.pc + 1)) s with ⟨h8, e⟩ | ⟨h8, e⟩ <;> rw [e]
        · exact ⟨_, rfl, .prn _ hp1 h3 rfl h8⟩
        · exact ⟨_, rfl, .firstIndex _ hp1 (.inl h3) rfl h8⟩
      · simp only [show s.pc + 1 = 256 by omega]
        exact ⟨_, rfl, .firstOperand (by omega) (.inl h3)⟩
    simp only [h3, if_false]
    by_cases h4 : s.mem.read s.pc = 0xA2#8
    · simp only [h4, if_true]
      by_cases hp1 : s.pc + 1 < 256
      · simp only [memRead_of_lt s hp1]
        by_cases hp2 : s.pc + 2 < 256
        · simp only [memRead_of_lt s hp2, exec]
          rcases execMul_cases (s.mem.read (s.pc + 1)) (s.mem.read (s.pc + 2)) s with
            ⟨ha, hb, e⟩ | ⟨ha, e⟩ | ⟨ha, hb, e⟩ <;> rw [e]
          · exact ⟨_, rfl, .mul _ _ hp2 h4 rfl rfl ha hb⟩
          · exact ⟨_, rfl, .firstIndex _ hp1 (.inr ⟨hp2, .inr h4⟩) rfl ha⟩
          · exact ⟨_, rfl, .secondIndex _ _ hp2 h4 rfl rfl ha hb⟩
        · simp only [show s.pc + 2 = 256 by omega]
          exact ⟨_, rfl, .secondOperand (by omega) (.inr h4)⟩
      · simp only [show s.pc + 1 = 256 by omega]
        exact ⟨_, rfl, .firstOperand (by omega) (.inr (.inr h4))⟩
    simp only [h4, if_false]
    exact ⟨_, rfl, .illegal hp (by simp [Opcode.ofByte_eq, h1, h2, h3, h4])⟩
  · simp only [memRead_of_ge s (show 256 ≤ s.pc by omega)]
    exact ⟨_, rfl, .opcodeFetch (by omega)⟩

/-- Inversion of a step that has a next state. -/
theorem step_next {s t : State} (h : step s = .next t) : s.run = .running ∧ StepCase s t := by
  by_cases hr : s.run = .running
  · obtain ⟨u, e, c⟩ := step_of_running hr
    rw [e] at h; cases h
    exact ⟨hr, c⟩
  · obtain ⟨r, -, e⟩ := step_of_not_running hr
    rw [e] at h; cases h

end Sys2Proof.Machine
end

