-- ==== Sys2Proof/Laws/Run.lean ====
section
/-! SUPPORT. Runs: where they stop, and the one induction over their steps. -/

namespace Sys2Proof.Machine

/-- A core that is not running stays as it is, however often it is asked to step. -/
theorem runFor_stopped {n : Nat} {s : State} (h : s.run ≠ .running) : runFor n s = s := by
  obtain ⟨r, -, e⟩ := step_of_not_running h
  cases n <;> simp [runFor, e]

/-- What every step keeps, a run keeps. -/
theorem runFor_keeps {P : State → Prop} (hstep : ∀ s t, P s → step s = .next t → P t) (n : Nat) (s : State)
    (h : P s) : P (runFor n s) := by
  induction n generalizing s with
  | zero => exact h
  | succ n ih =>
    unfold runFor
    split
    · exact ih _ (hstep _ _ h ‹_›)
    · exact h
    · exact h

/-- What every step keeps, any number of steps keeps. -/
theorem stepsTo_keeps {P : State → Prop} (hstep : ∀ s t, P s → step s = .next t → P t) {n : Nat} {s t : State}
    (h : P s) (hs : StepsTo n s t) : P t := by
  induction n generalizing s with
  | zero => cases hs; exact h
  | succ n ih => obtain ⟨u, e, hs⟩ := hs; exact ih (hstep _ _ h e) hs

/-- The host's run over a step that has a next state. -/
theorem coreRun_next {k : Nat} {s t : State} (e : step s = .next t) :
    Host.Core.run Sys2Proof.core (k + 1) s = Host.Core.run Sys2Proof.core k t := by
  have h := Host.Core.run.eq_2 Sys2Proof.core s k
  have e' : Sys2Proof.core.step s = .next t := e
  rw [e'] at h
  exact h

/-- The host's run over a step that faults. -/
theorem coreRun_fault {k : Nat} {s : State} {r : Fault} (e : step s = .fault r) :
    Host.Core.run Sys2Proof.core (k + 1) s = .fault r := by
  have h := Host.Core.run.eq_2 Sys2Proof.core s k
  have e' : Sys2Proof.core.step s = .fault r := e
  rw [e'] at h
  exact h

end Sys2Proof.Machine
end

