-- ==== Sys2Proof/Tests/Slice0.lean ====
section
/-! SUPPORT. The model's own tests. Expected values come from spec/95_test_vectors.md (S1, S2) and from the encoding
tables of spec/30_encoding.md; a witness shows a state and operands that meet the hypotheses of a statement. -/

namespace Sys2Proof.Tests

open Sys2Proof.Machine

/-- A running core with some bytes at `pc` and all else as after reset. -/
def st (bytes : List Byte) (pc : Nat) : State :=
  { State.reset with mem := placeBytes bytes pc [], pc := pc }

/-! ### Well-formedness: an ill-formed term for each check -/

theorem test_wellFormed_ldi_register : (Instr.ldi 8 1).wellFormed = false ∧ (Instr.ldi 7 255).wellFormed = true := by decide
theorem test_wellFormed_prn_register : (Instr.prn 8).wellFormed = false ∧ (Instr.prn 7).wellFormed = true := by decide
theorem test_wellFormed_mul_first : (Instr.mul 8 0).wellFormed = false ∧ (Instr.mul 7 7).wellFormed = true := by decide
theorem test_wellFormed_mul_second : (Instr.mul 0 8).wellFormed = false ∧ Instr.hlt.wellFormed = true := by decide

/-! ### Decoding: words written out bit by bit from R61 to R64, and S2.1 -/

theorem test_decode_hlt : decode [0b00000001#8] = .ok (.hlt, []) := rfl
theorem test_decode_prn : decode [0b01000111#8, 0b00000111#8] = .ok (.prn 7, []) := rfl
theorem test_decode_ldi : decode [0b10000010#8, 0b00000000#8, 0b00000011#8] = .ok (.ldi 0 3, []) := rfl
theorem test_decode_mul : decode [0b10100010#8, 0b00000000#8, 0b00000001#8] = .ok (.mul 0 1, []) := rfl
/-- S2.1: operand bytes `01` are not HLT; a register index of 8 decodes. -/
theorem test_decode_operands_whole : decode [0x82, 1, 1, 9] = .ok (.ldi 1 1, [9]) ∧ decode [0x47, 8] = .ok (.prn 8, []) :=
  ⟨rfl, rfl⟩
/-- S2.1: the illegal bytes listed there, each next to a legal one or a bit away from it. -/
theorem test_decode_illegal :
    ([0x00, 0x02, 0x03, 0x46, 0x48, 0x81, 0x83, 0xA0, 0xA1, 0xA3, 0xFF, 0x41, 0xC2, 0x80, 0x07, 0x22] : List Byte).all
      (fun b => Opcode.ofByte b == none) = true := by decide
/-- R76: the worked encoding. -/
theorem test_encode_worked_example :
    encode (.ldi 0 3) ++ encode (.prn 0) ++ encode .hlt = [0x82, 0x00, 0x03, 0x47, 0x00, 0x01] := by decide
/-- The table's numbering: the first byte is the least significant. -/
theorem test_decodeTableWord :
    decodeTableWord 8 0x01 = some .hlt ∧ decodeTableWord 24 0x030081 = none ∧
      decodeTableWord 24 0x030082 = some (.ldi 0 3) ∧ decodeTableWord 16 0x0747 = some (.prn 7) ∧
      decodeTableWord 24 0x0100A2 = some (.mul 0 1) ∧ decodeTableWord 8 0xA2 = some (.mul 0 0) := by decide
theorem test_withFetchWord_runs_next :
    nextState (step (State.reset.withFetchWord 24 0x030082)) =
      nextState (exec (.ldi 0 3) (State.reset.withFetchWord 24 0x030082)) := by decide

/-! ### One step of each instruction, from S2.2 to S2.6 -/

theorem test_hlt_in_last_cell : nextState (step (st [0x01] 255)) = some { st [0x01] 255 with run := .halted } := by decide
theorem test_ldi_7_255 :
    (nextState (step (st [0x82, 7, 0xFF] 253))).map (fun t => (t.pc, t.x[7], t.x[0])) = some (256, 255, 0) := by decide
theorem test_ldi_cut_off_before_bad_register :
    (nextState (step (st [0x82, 9] 254))).map (fun t => (t.pc, t.run)) =
      some (254, .faulted (.addressOutOfRange .mem 256)) := by decide
theorem test_prn_appends :
    (nextState (step ({ (st [0x47, 1] 2).setReg 1 72 with out := [9] }))).map (fun t => (t.pc, t.out)) =
      some (4, [9, 72]) := by decide
theorem test_prn_bad_register :
    (nextState (step (st [0x47, 8] 0))).map (fun t => (t.pc, t.out, t.run)) =
      some (0, [], .faulted (.addressOutOfRange .reg 8)) := by decide
theorem test_mul_wraps :
    (nextState (step (((st [0xA2, 0, 1] 0).setReg 0 200).setReg 1 3))).map (fun t => (t.x[0], t.x[1], t.pc)) =
      some (88, 3, 3) := by decide
theorem test_mul_first_bad_index_reported :
    (nextState (step (st [0xA2, 9, 8] 0))).map (·.run) = some (.faulted (.addressOutOfRange .reg 9)) := by decide
theorem test_illegal_opcode_before_operands :
    (nextState (step (st [0x00] 255))).map (·.run) = some (.faulted (.illegalInstruction 0 255)) := by decide
theorem test_fetch_off_the_end :
    (nextState (step (st [] 256))).map (fun t => (t.pc, t.run)) =
      some (256, .faulted (.addressOutOfRange .mem 256)) := by decide
theorem test_no_step_when_halted : step { State.reset with run := .halted } = .fault .halted := rfl

/-! ### The ALU, from S2.5 -/

/-- The value of `x[0]` after `alu(op, 0, 1)` from `x[0] = vd`, `x[1] = vs`. -/
def aluOn (op : AluOp) (vd vs : Byte) : Option Byte :=
  match alu op 0 1 ((State.reset.setReg 0 vd).setReg 1 vs) with
  | .ok t => some t.x[0]
  | .error _ => none

theorem test_alu_add : aluOn .add 200 100 = some 44 ∧ aluOn .add 255 255 = some 254 := by decide
theorem test_alu_sub : aluOn .sub 8 9 = some 255 ∧ aluOn .sub 0 77 = some 179 := by decide
theorem test_alu_mul : aluOn .mul 16 16 = some 0 ∧ aluOn .mul 12 21 = some 252 := by decide
theorem test_alu_div : aluOn .div 200 3 = some 66 ∧ aluOn .div 8 9 = some 0 := by decide
theorem test_alu_div_by_zero :
    alu .div 0 1 (State.reset.setReg 0 7) = .error (.divisionByZero .div 0 1 7 0) := rfl

/-! ### The host's operations, from S2.7 -/

theorem test_load_one_byte : ∃ t, load [1] State.reset = .ok t ∧ t.mem = [(0, 1)] := ⟨_, rfl, rfl⟩
theorem test_load_invalid_operand : load [0x82, 0x00, 256] State.reset = .error (.invalidOperand 256) := rfl
theorem test_load_canonical : ∃ t, load [0x82, 0, 3] State.reset = .ok t ∧ t.mem = [(0, 0x82), (2, 3)] := ⟨_, rfl, rfl⟩
theorem test_trace_at_the_end : (trace (st [0x47, 5] 254)).window = [some 0x47, some 5, none] := by decide
theorem test_outLines : outLines { State.reset with out := [0, 3, 255] } = ["0", "3", "255"] := by decide

/-! ### Witnesses: states and operands that meet the hypotheses of the statements -/

theorem test_witness_opcodeByteAloneFixesTheLength :
    ([] : List Byte).length < 1 ∧ ([7] : List Byte).length < 2 ∧
      (0xA3#8 ≠ 0x01#8 ∧ 0xA3#8 ≠ 0x47#8 ∧ 0xA3#8 ≠ 0x82#8 ∧ 0xA3#8 ≠ 0xA2#8) := by decide
theorem test_witness_stepRunsTheDecodedInstruction :
    (st [0x82, 9, 0xFF] 253).run = .running ∧
      bytesAt (st [0x82, 9, 0xFF] 253).mem (st [0x82, 9, 0xFF] 253).pc (encode (.ldi 9 0xFF)) = true := by decide
theorem test_witness_firstStepRunsTheStartOfTheImage :
    ∃ s, load ((encode (.mul 7 6) ++ [1]).map BitVec.toNat) State.reset = .ok s := ⟨_, rfl⟩
/-- The registers of the completion statements, LDI, PRN and MUL, at the top of their range. -/
theorem test_witness_completes : (7#8).toNat < 8 ∧ (0#8).toNat < 8 := by decide
theorem test_witness_wellFormedInstructionsComplete :
    (st [0xA2, 7, 7] 253).run = .running ∧ (Instr.mul 7 7).wellFormed = true ∧
      bytesAt (st [0xA2, 7, 7] 253).mem (st [0xA2, 7, 7] 253).pc (encode (.mul 7 7)) = true := by decide

/-- A state and an instruction that meet the hypotheses of EffectThenAdvanceByTheLength. -/
def CompletesAt (s : State) (i : Instr) : Prop :=
  s.run = .running ∧ bytesAt s.mem s.pc (encode i) = true ∧ ∃ t, step s = .next t ∧ ∀ f, t.run ≠ .faulted f

theorem test_witness_effectThenAdvance_hlt : CompletesAt (st [0x01] 255) .hlt :=
  ⟨rfl, by decide, _, rfl, fun f => by intro h; cases h⟩
theorem test_witness_effectThenAdvance_ldi : CompletesAt (st [0x82, 7, 0] 253) (.ldi 7 0) :=
  ⟨rfl, by decide, _, rfl, fun f => by intro h; cases h⟩
theorem test_witness_effectThenAdvance_prn : CompletesAt (st [0x47, 7] 254) (.prn 7) :=
  ⟨rfl, by decide, _, rfl, fun f => by intro h; cases h⟩
theorem test_witness_effectThenAdvance_mul : CompletesAt (st [0xA2, 7, 0] 253) (.mul 7 0) :=
  ⟨rfl, by decide, _, rfl, fun f => by intro h; cases h⟩
theorem test_witness_frames :
    (∃ t, exec (.ldi 7 3) State.reset = .next t) ∧ (∃ t, exec (.mul 7 8) State.reset = .next t) ∧
      (∃ t, exec .hlt State.reset = .next t) ∧ (∃ t, exec (.prn 8) State.reset = .next t) :=
  ⟨⟨_, rfl⟩, ⟨_, rfl⟩, ⟨_, rfl⟩, ⟨_, rfl⟩⟩
theorem test_witness_onlyListedRegistersMatter :
    2 ∉ regsRead (.mul 0 1) ∧ 2 ∉ regsWritten (.mul 0 1) ∧ (7 : Fin 8).val = (7#8).toNat := by decide
/-- A running core: StepIsTheCycleOfTheEngine, IllegalOpcodeFailsByName, and the clauses that ask for nothing more. -/
theorem test_witness_running : State.reset.run = .running := rfl
theorem test_witness_onlyHltEndsARunNormally :
    (st [0x01] 255).run = .running ∧ (st [0x01] 255).pc < 256 ∧ (st [0x01] 255).mem.read (st [0x01] 255).pc = 0x01#8 := by
  decide
theorem test_witness_noStepFollowsAFailure :
    ({ State.reset with run := .faulted (.illegalInstruction 0 0) } : State).run = .faulted (.illegalInstruction 0 0) ∧
      StepsTo 0 State.reset State.reset := ⟨rfl, rfl⟩
/-- A step that leaves the core running, one that halts and one that fails: the statements about any next state
(MemoryIsConstantDuringARun, ControlFlowIsStrictlySequential, OnlyPrnAddsOutput, OutputLinesStayInOrder, the last
clauses of DivisionByZeroOnlyInTheAlu and UnknownAluSymbolIsUnsupported). -/
theorem test_witness_next_state :
    (∃ t, step (st [0x47, 0] 254) = .next t ∧ t.run = .running ∧ t.out ≠ []) ∧
      (∃ t, step (st [0x01] 0) = .next t ∧ t.run ≠ .running) ∧ (∃ t, step State.reset = .next t ∧ t.run ≠ .running) :=
  ⟨⟨_, rfl, rfl, by decide⟩, ⟨_, rfl, by decide⟩, ⟨_, rfl, by decide⟩⟩
theorem test_witness_onlyLdiAndMulWriteARegister :
    ∃ t, step (st [0x82, 7, 1] 0) = .next t ∧ t.x[7] ≠ (st [0x82, 7, 1] 0).x[7] := ⟨_, rfl, by decide⟩
theorem test_witness_unfetchedBytesHaveNoEffect :
    ∀ k < fetchedBytes (st [0x47, 0, 5] 0),
      (placeBytes [0x47, 0, 9] 0 []).read ((st [0x47, 0, 5] 0).pc + k) =
        (st [0x47, 0, 5] 0).mem.read ((st [0x47, 0, 5] 0).pc + k) := by decide
theorem test_witness_failedStepChangesOnlyTheRunState :
    ∃ t, step (st [0x47, 8] 254) = .next t ∧ t.run = .faulted (.addressOutOfRange .reg 8) := ⟨_, rfl, rfl⟩
theorem test_witness_memoryFailureOnlyAtTheEndOfMemory :
    (st [] 256).pc ≤ 256 ∧ (∃ t, step (st [] 256) = .next t ∧ t.run = .faulted (.addressOutOfRange .mem 256)) ∧
      (∃ t, step (st [0x47] 255) = .next t ∧ t.run = .faulted (.addressOutOfRange .mem 256)) ∧
      (∃ t, step (st [0xA2, 0] 254) = .next t ∧ t.run = .faulted (.addressOutOfRange .mem 256)) :=
  ⟨by decide, ⟨_, rfl, rfl⟩, ⟨_, rfl, rfl⟩, ⟨_, rfl, rfl⟩⟩
theorem test_witness_registerFailureExactlyOnABadIndex :
    (firstBadIndex (.mul 9 8) = some 9 ∧ firstBadIndex (.mul 7 255) = some 255 ∧ firstBadIndex (.ldi 7 255) = none) ∧
      bytesAt (st [0xA2, 9, 8] 253).mem 253 (encode (.mul 9 8)) = true ∧
      bytesAt (st [0x82, 7, 255] 0).mem 0 (encode (.ldi 7 255)) = true ∧
      (∃ t, step (st [0x82, 7, 255] 0) = .next t) ∧
      (∃ t, step (st [0xA2, 7, 255] 0) = .next t ∧ t.run = .faulted (.addressOutOfRange .reg 255)) :=
  ⟨by decide, by decide, by decide, ⟨_, rfl⟩, ⟨_, rfl, rfl⟩⟩
theorem test_witness_illegalOpcodeFailsByName :
    step (st [0xA3] 255) = .next { st [0xA3] 255 with run := .faulted (.illegalInstruction 0xA3 255) } := rfl
theorem test_witness_hostInterfaceRun : Host.Core.run Sys2Proof.core 2 (st [0x01] 0) = .fault .halted := rfl
theorem test_witness_unloadedMemoryEndsTheRun :
    (st [] 255).run = .running ∧ (st [] 255).pc < 256 ∧ (st [] 255).mem.read (st [] 255).pc = 0 := by decide
/-- Indices at both sides of 8: the ALU's statements and RegisterAccessChecksTheWholeIndex. -/
theorem test_witness_alu_indices : (7#8).toNat < 8 ∧ 8 ≤ (8#8).toNat ∧ 8 ≤ (255#8).toNat := by decide
/-- A source register that is not 0, and one that is: AluWritesTheResult, AluOnOneRegisterTwice,
DivisionByZeroOnlyInTheAlu. -/
theorem test_witness_alu_values :
    (State.reset.setReg 7 1).x[(7#8).toNat] ≠ 0 ∧ State.reset.x[(7#8).toNat] = 0 := by decide
theorem test_witness_divisionByZeroOnlyInTheAlu :
    alu .div 7 7 State.reset = .error (.divisionByZero .div 7 7 0 0) := rfl
theorem test_witness_aluTouchesOnlyItsDestination :
    ∃ t t', alu .sub 7 6 (State.reset.setReg 7 5) = .ok t ∧ alu .sub 7 6 ((State.reset.setReg 7 5).setReg 0 9) = .ok t' ∧
      ((State.reset.setReg 7 5).setReg 0 9).x[(7#8).toNat] = (State.reset.setReg 7 5).x[(7#8).toNat] ∧
      ((State.reset.setReg 7 5).setReg 0 9).x[(6#8).toNat] = (State.reset.setReg 7 5).x[(6#8).toNat] :=
  ⟨_, _, rfl, rfl, by decide, by decide⟩
theorem test_witness_unknownAluSymbol : "AND" ≠ "ADD" ∧ "AND" ≠ "SUB" ∧ "AND" ≠ "MUL" ∧ "AND" ≠ "DIV" := by decide
theorem test_witness_memWrite :
    State.reset.mem.wf = true ∧ 256 ≤ 256 ∧ (255 < 256 ∧ 255 < 256) ∧ (255 < 256 ∧ 255 ≤ 255) := by decide
theorem test_witness_canonicalMemory :
    Memory.wf [(0, 1), (255, 2)] = true ∧ Memory.wf [(1, 1), (0, 2)] = false ∧ Memory.wf [(0, 0)] = false ∧
      Memory.wf [(256, 1)] = false := by decide
theorem test_witness_resetClearsEverything :
    (st [] 0).pc = State.reset.pc ∧ (st [] 0).mem.read 0 = 0 ∧ (st [0x01] 0).pc = State.reset.pc ∧
      (st [0x01] 0).mem.read 0 = 0x01#8 ∧ (255 : Nat) < 256 ∧ (7#8).toNat < 8 := by decide
/-- A state that meets the invariant, is running, has a next state, and takes a `load`. -/
theorem test_witness_invariant :
    (st [0x47, 0] 254).Inv ∧ (∃ t, step (st [0x47, 0] 254) = .next t) ∧ (st [0x47, 0] 254).run = .running ∧
      ∃ t, load [0x01] (st [0x47, 0] 254) = .ok t :=
  ⟨⟨by decide, by decide, by decide, trivial⟩, ⟨_, rfl⟩, rfl, ⟨_, rfl⟩⟩
/-- ReachableStatesMeetTheInvariant, and the clauses of RunComesBackWithTheEndOfTheRun and EveryRunEndsWithin129Steps. -/
theorem test_witness_reachable :
    ∃ s t, load [0x01] State.reset = .ok s ∧ StepsTo 1 s t := ⟨_, _, rfl, _, rfl, rfl⟩
theorem test_witness_loadInstallsTheImage :
    (List.replicate 256 255).length ≤ 256 ∧ (∀ v ∈ List.replicate 256 255, v ≤ 255) ∧ State.reset.mem.wf = true :=
  ⟨by rw [List.length_replicate], fun v hv => by rw [List.eq_of_mem_replicate hv], rfl⟩
theorem test_witness_loadFailsWithNoPartialWrite :
    256 < (List.replicate 257 0).length ∧ (([0x82, 0] : List Nat) ++ 256 :: []).length ≤ 256 ∧
      (∀ u ∈ ([0x82, 0] : List Nat), u ≤ 255) ∧ 255 < 256 ∧
      Session.start.phase = .constructed ∧ load [256] Session.start.core = .error (.invalidOperand 256) :=
  ⟨by rw [List.length_replicate]; omega, by decide, by decide, by decide, rfl, rfl⟩
theorem test_witness_loadIsAcceptedOncePerReset :
    (∃ h' r, Session.start.load [0x01] = .next (h', r)) ∧
      ({ Session.start with phase := .loaded } : Session).phase ≠ .constructed := ⟨⟨_, _, rfl⟩, by decide⟩
theorem test_witness_runAgainChangesNothing : ∃ h' r, Session.start.run = .next (h', r) := ⟨_, _, rfl⟩
theorem test_witness_traceReadsTheWindowOnly :
    (st [0x47, 0, 9] 0).pc = (st [0x47, 0, 9, 5] 0).pc ∧ (st [0x47, 0, 9] 0).x = (st [0x47, 0, 9, 5] 0).x ∧
      (∀ k < 3, (st [0x47, 0, 9] 0).mem.read (0 + k) = (st [0x47, 0, 9, 5] 0).mem.read (0 + k)) ∧
      (st [] 254).pc + 1 < 256 ∧ 256 ≤ (st [] 254).pc + 2 := by decide

end Sys2Proof.Tests
end

section
/-! PROOFS. The encoding: what the list decoder answers on each kind of list, and the two statements about formats and
lengths (R61 to R67). -/

namespace Sys2Proof

/-! ### What one call of the decoder answers -/

@[simp] theorem length_encode (i : Instr) : (encode i).length = i.length := by
  cases i <;> rfl

/-- The bytes of an instruction, legal operands or not, decode to it and leave what follows them (R60, R75). -/
theorem decode_encode_append (i : Instr) (rest : List Byte) : decode (encode i ++ rest) = .ok (i, rest) := by
  have hread : decodeWith (listByte (encode i ++ rest)) DecodeError.illegalOpcode = .ok i :=
    decodeWith_ok.mpr fun k hk => by
      rw [listByte, List.getElem?_append_left hk, List.getElem?_eq_getElem hk]
  rw [decode, hread]
  simp only [← length_encode, List.drop_left]

/-- An opcode byte outside the table is judged before any operand byte is looked at (R67, R70). -/
theorem decode_illegalOpcode {op : Byte} (h : Opcode.ofByte op = none) (bs : List Byte) :
    decode (op :: bs) = .error (.illegalOpcode op) := by
  simp [decode, decodeWith, listByte, h, bind, Except.bind]

/-- A list that ends before the instruction its opcode byte announces is cut off (R67). -/
theorem decode_truncated {op : Byte} {o : Opcode} {bs : List Byte} (h : Opcode.ofByte op = some o)
    (hlen : (op :: bs).length < o.length) : decode (op :: bs) = .error .truncated := by
  cases o with
  | hlt => simp [Opcode.length] at hlen
  | prn =>
    obtain rfl : bs = [] := by simpa [Opcode.length] using hlen
    simp [decode, decodeWith, listByte, h, bind, Except.bind]
  | ldi | mul =>
    match bs, hlen with
    | [], _ | [_], _ => simp [decode, decodeWith, listByte, h, bind, Except.bind]
    | _ :: _ :: _, hlen => simp only [List.length_cons, Opcode.length] at hlen; omega

/-! ### Which bytes are opcodes, and which register operands are legal -/

theorem Opcode.ofByte_eq_none {op : Byte} (hhlt : op ≠ 0x01#8) (hprn : op ≠ 0x47#8) (hldi : op ≠ 0x82#8)
    (hmul : op ≠ 0xA2#8) : Opcode.ofByte op = none := by
  rw [Opcode.ofByte_eq, if_neg hhlt, if_neg hldi, if_neg hprn, if_neg hmul]

theorem registerOperandOk_iff (r : Byte) : registerOperandOk r = true ↔ r.toNat ≤ 7 := by
  simp only [registerOperandOk, Config.numRegs, decide_eq_true_iff, Nat.lt_succ_iff]

/-! ### The statements -/

/-- Settles O1: the words of each format are the bytes the encoder writes, so they decode by `decode_encode_append`. -/
theorem formatsDecodeAsTheTablesSay : Obligations.FormatsDecodeAsTheTablesSay := by
  intro r imm a b rest
  have hmul : (Instr.mul a b).wellFormed = true ↔ a.toNat ≤ 7 ∧ b.toNat ≤ 7 := by
    rw [Instr.wellFormed, Bool.and_eq_true, registerOperandOk_iff, registerOperandOk_iff]
  exact ⟨decode_encode_append .hlt rest, decode_encode_append (.prn r) rest, decode_encode_append (.ldi r imm) rest,
    decode_encode_append (.mul a b) rest, rfl, rfl, rfl, rfl, registerOperandOk_iff r, registerOperandOk_iff r, hmul⟩

/-- Settles O2: an opcode byte is one of the four patterns, whose list is long enough or cut off, or it is illegal. -/
theorem opcodeByteAloneFixesTheLength : Obligations.OpcodeByteAloneFixesTheLength := by
  intro op bs
  refine ⟨?hlt, ?prn, ?ldi, ?mul, ?illegal⟩
  case hlt =>
    rintro rfl
    exact decode_encode_append .hlt bs
  case prn =>
    rintro rfl
    constructor
    · rintro r tl rfl
      exact decode_encode_append (.prn r) tl
    · exact fun hlen => decode_truncated (Opcode.ofByte_pattern .prn) (Nat.succ_lt_succ hlen)
  case ldi =>
    rintro rfl
    constructor
    · rintro r imm tl rfl
      exact decode_encode_append (.ldi r imm) tl
    · exact fun hlen => decode_truncated (Opcode.ofByte_pattern .ldi) (Nat.succ_lt_succ hlen)
  case mul =>
    rintro rfl
    constructor
    · rintro a b tl rfl
      exact decode_encode_append (.mul a b) tl
    · exact fun hlen => decode_truncated (Opcode.ofByte_pattern .mul) (Nat.succ_lt_succ hlen)
  case illegal =>
    intro hhlt hprn hldi hmul
    exact decode_illegalOpcode (Opcode.ofByte_eq_none hhlt hprn hldi hmul) bs

end Sys2Proof
end

section
/-! PROOFS. Fetching: the decoder over memory reads exactly the encoded bytes (R60, R92, R94). -/

namespace Sys2Proof

theorem listByte_ok {bs : List Byte} {k : Nat} {b : Byte} : listByte bs k = .ok b ↔ bs[k]? = some b := by
  unfold listByte
  cases bs[k]? <;> simp

/-- What a successful decode has read: the instruction's bytes stand at the front, the rest follows them. -/
theorem eq_encode_append_of_decode {bs rest : List Byte} {i : Instr} (h : decode bs = .ok (i, rest)) :
    bs = encode i ++ rest := by
  unfold decode at h
  split at h
  · next j hj =>
    cases h
    have htake : bs.take (encode i).length = encode i := List.ext_getElem? fun k => by
      obtain hk | hk := Nat.lt_or_ge k (encode i).length
      · rw [List.getElem?_take_of_lt hk, List.getElem?_eq_getElem hk]
        exact listByte_ok.mp (decodeWith_ok.mp hj k hk)
      · rw [List.getElem?_take_eq_none hk, List.getElem?_eq_none hk]
    calc bs = bs.take (encode i).length ++ bs.drop (encode i).length := (List.take_append_drop _ bs).symm
      _ = encode i ++ bs.drop i.length := by rw [htake, length_encode]
  · cases h

/-- Settles O3: what decodes begins with the instruction's bytes, and those bytes decode to it. -/
theorem decodeAcceptsExactlyTheEncodings : Obligations.DecodeAcceptsExactlyTheEncodings := by
  intro bs rest i
  constructor
  · exact eq_encode_append_of_decode
  · rintro rfl
    exact decode_encode_append i rest

end Sys2Proof

namespace Sys2Proof.Machine

theorem bytesAt_iff {m : Memory} {a : Nat} {bs : List Byte} :
    bytesAt m a bs = true ↔ ∀ k (h : k < bs.length), a + k < 256 ∧ m.read (a + k) = bs[k] := by
  induction bs generalizing a with
  | nil => simp [bytesAt]
  | cons b bs ih =>
    simp only [bytesAt, Bool.and_eq_true, decide_eq_true_iff, ih]
    constructor
    · rintro ⟨hb, hbs⟩ (_ | k) hk
      · exact hb
      · have := hbs k (Nat.lt_of_succ_lt_succ hk)
        rwa [Nat.add_right_comm] at this
    · intro h
      refine ⟨h 0 (Nat.succ_pos _), fun k hk => ?_⟩
      have := h (k + 1) (Nat.succ_lt_succ hk)
      rwa [Nat.add_right_comm]

/-- Bytes that stand in memory end inside it. -/
theorem bytesAt_encode_le {m : Memory} {a : Nat} {i : Instr} (h : bytesAt m a (encode i) = true) :
    a + i.length ≤ 256 := by
  have hpos : 0 < (encode i).length := by cases i <;> exact Nat.succ_pos _
  have hlast := (bytesAt_iff.mp h ((encode i).length - 1) (by omega)).1
  rw [length_encode] at hpos hlast
  omega

/-- The fetch answers an instruction exactly where its bytes stand at the program counter. -/
theorem fetch_ok {s : State} {i : Instr} : fetch s = .ok i ↔ bytesAt s.mem s.pc (encode i) = true := by
  simp only [fetch, decodeWith_ok, memRead_ok, bytesAt_iff]

/-- An illegal opcode byte is judged before any operand is read (R94). -/
theorem fetch_illegal {s : State} (hp : s.pc < 256) (hop : Opcode.ofByte (s.mem.read s.pc) = none) :
    fetch s = .error (.illegalInstruction (s.mem.read s.pc) s.pc) := by
  simp [fetch, decodeWith, memRead_of_lt s hp, hop, bind, Except.bind]

theorem step_of_fetch_ok {s : State} {i : Instr} (hrun : s.run = .running) (h : fetch s = .ok i) :
    step s = exec i s := by
  simp [step, hrun, stopped, h]

theorem step_of_bytesAt {s : State} {i : Instr} (hrun : s.run = .running)
    (h : bytesAt s.mem s.pc (encode i) = true) : step s = exec i s :=
  step_of_fetch_ok hrun (fetch_ok.mpr h)

/-- Settles O4: each byte the decoder reads is a checked read of memory. -/
theorem fetchReadsExactlyTheEncodedBytes : Obligations.FetchReadsExactlyTheEncodedBytes :=
  fun _ _ => fetch_ok

/-- Settles O5: the fetch answers the instruction, and the step is its `exec`. -/
theorem stepRunsTheDecodedInstruction : Obligations.StepRunsTheDecodedInstruction :=
  fun _ _ => step_of_bytesAt

end Sys2Proof.Machine
end

section
/-! PROOFS. What each instruction does: one equation per instruction with its registers in range, one for the first
register operand that is not, and from them the effects and frames (R98, R105 to R108). -/

namespace Sys2Proof.Machine

/-! ### Equations -/

@[simp] theorem exec_hlt (s : State) : exec .hlt s = .next s.halt := rfl

theorem exec_ldi_of_lt {r : Byte} (h : r.toNat < 8) (imm : Byte) (s : State) :
    exec (.ldi r imm) s = .next ((s.setReg ⟨r.toNat, h⟩ imm).advance 3) := by
  obtain ⟨_, e⟩ | ⟨hge, _⟩ := execLdi_cases r imm s
  · exact e
  · omega

theorem exec_prn_of_lt {r : Byte} (h : r.toNat < 8) (s : State) :
    exec (.prn r) s = .next ((s.emit (s.reg ⟨r.toNat, h⟩)).advance 2) := by
  obtain ⟨_, e⟩ | ⟨hge, _⟩ := execPrn_cases r s
  · exact e
  · omega

theorem exec_mul_of_lt {a b : Byte} (ha : a.toNat < 8) (hb : b.toNat < 8) (s : State) :
    exec (.mul a b) s = .next ((s.setReg ⟨a.toNat, ha⟩
      (narrow ((s.reg ⟨a.toNat, ha⟩).toNat * (s.reg ⟨b.toNat, hb⟩).toNat))).advance 3) := by
  obtain ⟨_, _, e⟩ | ⟨hge, _⟩ | ⟨_, hge, _⟩ := execMul_cases a b s
  · exact e
  · omega
  · omega

/-- The first register operand out of range is the failure, whatever the state (R95, R123). -/
theorem exec_of_firstBadIndex {i : Instr} {ix : Nat} (h : firstBadIndex i = some ix) (s : State) :
    exec i s = .next (s.raise (.addressOutOfRange .reg ix)) := by
  cases i with
  | hlt => cases h
  | ldi r imm =>
    obtain ⟨hge, rfl⟩ : 8 ≤ r.toNat ∧ r.toNat = ix := by simpa [firstBadIndex] using h
    exact ((execLdi_cases r imm s).resolve_left fun ⟨hlt, _⟩ => by omega).2
  | prn r =>
    obtain ⟨hge, rfl⟩ : 8 ≤ r.toNat ∧ r.toNat = ix := by simpa [firstBadIndex] using h
    exact ((execPrn_cases r s).resolve_left fun ⟨hlt, _⟩ => by omega).2
  | mul a b =>
    simp only [firstBadIndex] at h
    obtain ⟨ha, hb, _⟩ | ⟨ha, e⟩ | ⟨ha, hb, e⟩ := execMul_cases a b s
    · simp [show ¬ 8 ≤ a.toNat by omega, show ¬ 8 ≤ b.toNat by omega] at h
    · obtain rfl : a.toNat = ix := by simpa [ha] using h
      exact e
    · obtain rfl : b.toNat = ix := by simpa [show ¬ 8 ≤ a.toNat by omega, hb] using h
      exact e

theorem firstBadIndex_range {i : Instr} {ix : Nat} (h : firstBadIndex i = some ix) : 8 ≤ ix ∧ ix ≤ 255 := by
  have range_of_ge (r : Byte) (hr : 8 ≤ r.toNat) : 8 ≤ r.toNat ∧ r.toNat ≤ 255 := ⟨hr, Nat.le_of_lt_succ r.isLt⟩
  cases i with
  | hlt => cases h
  | ldi r imm | prn r =>
    obtain ⟨hr, rfl⟩ : 8 ≤ r.toNat ∧ r.toNat = ix := by simpa [firstBadIndex] using h
    exact range_of_ge r hr
  | mul a b =>
    simp only [firstBadIndex] at h
    split at h
    · cases h; exact range_of_ge a ‹_›
    · split at h
      · cases h; exact range_of_ge b ‹_›
      · cases h

/-- The well-formed instructions are those with no register operand out of range. -/
theorem wellFormed_iff_firstBadIndex (i : Instr) : i.wellFormed = true ↔ firstBadIndex i = none := by
  cases i with
  | hlt => simp [Instr.wellFormed, firstBadIndex]
  | ldi r imm => simp [Instr.wellFormed, firstBadIndex, registerOperandOk]
  | prn r => simp [Instr.wellFormed, firstBadIndex, registerOperandOk]
  | mul a b =>
    by_cases ha : a.toNat < 8
    · simp [Instr.wellFormed, firstBadIndex, registerOperandOk, ha, Nat.not_le.mpr ha]
    · simp [Instr.wellFormed, firstBadIndex, registerOperandOk, ha, show 8 ≤ a.toNat by omega]

/-- An instruction completes with no failure when it is well formed: HLT halts, the others leave the run state. -/
theorem exec_wellFormed {i : Instr} (h : i.wellFormed = true) (s : State) :
    ∃ t, exec i s = .next t ∧ (i = .hlt → t.run = .halted) ∧ (i ≠ .hlt → t.run = s.run) := by
  cases i with
  | hlt => exact ⟨_, exec_hlt s, fun _ => rfl, fun hne => absurd rfl hne⟩
  | ldi r imm =>
    have hr : r.toNat < 8 := of_decide_eq_true h
    exact ⟨_, exec_ldi_of_lt hr imm s, nofun, fun _ => rfl⟩
  | prn r =>
    have hr : r.toNat < 8 := of_decide_eq_true h
    exact ⟨_, exec_prn_of_lt hr s, nofun, fun _ => rfl⟩
  | mul a b =>
    obtain ⟨ha, hb⟩ : a.toNat < 8 ∧ b.toNat < 8 := by simpa [Instr.wellFormed, registerOperandOk] using h
    exact ⟨_, exec_mul_of_lt ha hb s, nofun, fun _ => rfl⟩

/-! ### Register updates -/

theorem State.reg_eq (s : State) {k : Nat} (h : k < 8) : s.reg ⟨k, h⟩ = s.x[k] := rfl

theorem State.setReg_x_same (s : State) {k : Nat} (h : k < 8) (v : Byte) : (s.setReg ⟨k, h⟩ v).x[k] = v := by
  simp

theorem State.setReg_x_ne (s : State) {j : Fin 8} {k : Nat} (hk : k < 8) (hne : k ≠ j) (v : Byte) :
    (s.setReg j v).x[k] = s.x[k] := by
  simp [Vector.getElem_set_ne _ _ hne.symm]

theorem State.setReg_comm (s : State) {j k : Fin 8} (h : (j : Nat) ≠ k) (u v : Byte) :
    (s.setReg j u).setReg k v = (s.setReg k v).setReg j u := by
  simp only [State.setReg, Vector.set_comm _ _ h]

theorem State.setReg_setReg (s : State) (k : Fin 8) (u v : Byte) : (s.setReg k u).setReg k v = s.setReg k v := by
  simp [State.setReg, Vector.set_set]

/-- The narrowed product of two bytes is the product modulo 256 (R84). -/
theorem narrow_mul_toNat (u v : Byte) : (narrow (u.toNat * v.toNat)).toNat = u.toNat * v.toNat % 256 := by
  rw [← narrow_toNat, Nat.cast_mul]

/-! ### The instructions complete -/

/-- Settles O7: HLT's meaning is `State.halt`. -/
theorem hltCompletes : Obligations.HltCompletes := exec_hlt

/-- Settles O8: the equation of LDI, read field by field. -/
theorem ldiCompletes : Obligations.LdiCompletes := fun s _ imm hr =>
  ⟨_, exec_ldi_of_lt hr imm s, State.setReg_x_same s hr imm, fun _ hk hne => State.setReg_x_ne s hk hne imm,
    rfl, rfl, rfl, rfl⟩

/-- Settles O9: the equation of PRN, read field by field. -/
theorem prnCompletes : Obligations.PrnCompletes := fun s _ hr =>
  ⟨_, exec_prn_of_lt hr s, rfl, rfl, rfl, rfl, rfl⟩

/-- Settles O10: the equation of MUL, with the narrowed product read as a remainder. -/
theorem mulCompletes : Obligations.MulCompletes := by
  intro s a b ha hb
  refine ⟨_, exec_mul_of_lt ha hb s, ?_, fun k hk hne => State.setReg_x_ne s hk hne _, rfl, rfl, rfl, rfl⟩
  rw [State.advance_x, State.setReg_x_same, narrow_mul_toNat, State.reg_eq, State.reg_eq]

/-- Settles O11: the step is `exec` of the instruction, which completes when it is well formed. -/
theorem wellFormedInstructionsComplete : Obligations.WellFormedInstructionsComplete := by
  intro s i hrun hwf hbytes
  rw [step_of_bytesAt hrun hbytes, ← hrun]
  exact exec_wellFormed hwf s

/-! ### Inversion: where a next state comes from -/

theorem exec_ldi_next {r imm : Byte} {s t : State} (h : exec (.ldi r imm) s = .next t) :
    (∃ hr : r.toNat < 8, t = (s.setReg ⟨r.toNat, hr⟩ imm).advance 3) ∨ ∃ f, t = s.raise f := by
  obtain ⟨hr, e⟩ | ⟨_, e⟩ := execLdi_cases r imm s <;> cases e.symm.trans h
  · exact .inl ⟨hr, rfl⟩
  · exact .inr ⟨_, rfl⟩

theorem exec_prn_next {r : Byte} {s t : State} (h : exec (.prn r) s = .next t) :
    (∃ hr : r.toNat < 8, t = (s.emit (s.reg ⟨r.toNat, hr⟩)).advance 2) ∨ ∃ f, t = s.raise f := by
  obtain ⟨hr, e⟩ | ⟨_, e⟩ := execPrn_cases r s <;> cases e.symm.trans h
  · exact .inl ⟨hr, rfl⟩
  · exact .inr ⟨_, rfl⟩

theorem exec_mul_next {a b : Byte} {s t : State} (h : exec (.mul a b) s = .next t) :
    (∃ (ha : a.toNat < 8) (hb : b.toNat < 8), t = (s.setReg ⟨a.toNat, ha⟩
      (narrow ((s.reg ⟨a.toNat, ha⟩).toNat * (s.reg ⟨b.toNat, hb⟩).toNat))).advance 3) ∨ ∃ f, t = s.raise f := by
  obtain ⟨ha, hb, e⟩ | ⟨_, e⟩ | ⟨_, _, e⟩ := execMul_cases a b s <;> cases e.symm.trans h
  · exact .inl ⟨ha, hb, rfl⟩
  · exact .inr ⟨_, rfl⟩
  · exact .inr ⟨_, rfl⟩

/-- LDI and MUL have one shape: one register write and the advance, or a failure. -/
theorem exec_ldi_or_mul_next {d o : Byte} {s t : State}
    (h : exec (.ldi d o) s = .next t ∨ exec (.mul d o) s = .next t) :
    (∃ (hd : d.toNat < 8) (v : Byte), t = (s.setReg ⟨d.toNat, hd⟩ v).advance 3) ∨ ∃ f, t = s.raise f := by
  obtain h | h := h
  · exact (exec_ldi_next h).imp (fun ⟨hd, e⟩ => ⟨hd, _, e⟩) id
  · exact (exec_mul_next h).imp (fun ⟨hd, _, e⟩ => ⟨hd, _, e⟩) id

/-- Settles O12: `exec` of each instruction, inverted; the bound is that its bytes end inside memory. -/
theorem effectThenAdvanceByTheLength : Obligations.EffectThenAdvanceByTheLength := by
  intro s t i hrun hbytes hstep hok
  have hle := bytesAt_encode_le hbytes
  have hraise : ¬ ∃ f, t = s.raise f := fun ⟨f, e⟩ => hok f (e ▸ rfl)
  rw [step_of_bytesAt hrun hbytes] at hstep
  cases i with
  | hlt =>
    cases hstep
    exact ⟨Nat.le_of_succ_le hle, rfl⟩
  | ldi r imm =>
    obtain ⟨hr, rfl⟩ := (exec_ldi_next hstep).resolve_right hraise
    exact ⟨hle, hr, rfl⟩
  | prn r =>
    obtain ⟨hr, rfl⟩ := (exec_prn_next hstep).resolve_right hraise
    exact ⟨hle, hr, rfl⟩
  | mul a b =>
    obtain ⟨ha, hb, rfl⟩ := (exec_mul_next hstep).resolve_right hraise
    exact ⟨hle, ha, hb, _, narrow_mul_toNat _ _, rfl⟩

/-! ### Frames -/

/-- Settles O13: LDI and MUL make one register write or a failure. -/
theorem ldiAndMulFrame : Obligations.LdiAndMulFrame := by
  intro s t d o h
  obtain ⟨hd, v, rfl⟩ | ⟨f, rfl⟩ := exec_ldi_or_mul_next h
  · exact ⟨fun k hk hne => State.setReg_x_ne s hk hne v, fun _ => rfl, rfl, rfl, .inl rfl⟩
  · exact ⟨fun _ _ _ => rfl, fun _ => rfl, rfl, rfl, .inr ⟨f, rfl⟩⟩

/-- Settles O14: HLT writes the run state; PRN emits one value or fails. -/
theorem hltAndPrnFrame : Obligations.HltAndPrnFrame := by
  intro s t r
  constructor
  · intro h
    cases h
    exact ⟨rfl, fun _ => rfl, rfl, rfl, rfl⟩
  · intro h
    obtain ⟨hr, rfl⟩ | ⟨f, rfl⟩ := exec_prn_next h
    · exact ⟨rfl, fun _ => rfl, rfl, .inr ⟨_, rfl⟩, .inl rfl⟩
    · exact ⟨rfl, fun _ => rfl, rfl, .inl rfl, .inr ⟨f, rfl⟩⟩

/-- An instruction that fails at a register operand fails alike whatever the registers hold. -/
theorem exec_setReg_of_firstBadIndex {i : Instr} {ix : Nat} (h : firstBadIndex i = some ix) (s : State) (k : Fin 8)
    (v : Byte) : exec i (s.setReg k v) = mapNext (fun t => t.setReg k v) (exec i s) := by
  simp only [exec_of_firstBadIndex h]
  rfl

/-- A register the instruction does not list passes through it (R22). -/
theorem exec_setReg_of_unlisted {i : Instr} {s : State} {k : Fin 8} (v : Byte) (hread : k.val ∉ regsRead i)
    (hwritten : k.val ∉ regsWritten i) : exec i (s.setReg k v) = mapNext (fun t => t.setReg k v) (exec i s) := by
  cases hbad : firstBadIndex i with
  | some ix => exact exec_setReg_of_firstBadIndex hbad s k v
  | none =>
    have hwf := (wellFormed_iff_firstBadIndex i).mpr hbad
    cases i with
    | hlt => rfl
    | ldi r imm =>
      have hr : r.toNat < 8 := of_decide_eq_true hwf
      have hk : k.val ≠ r.toNat := by simpa [regsWritten] using hwritten
      simp only [exec_ldi_of_lt hr, mapNext, State.setReg_comm s (j := k) (k := ⟨r.toNat, hr⟩) hk]
      rfl
    | prn r =>
      have hr : r.toNat < 8 := of_decide_eq_true hwf
      have hk : k ≠ ⟨r.toNat, hr⟩ := by simpa [regsRead, Fin.ext_iff] using hread
      simp only [exec_prn_of_lt hr, mapNext, State.reg_setReg, if_neg hk]
      rfl
    | mul a b =>
      obtain ⟨ha, hb⟩ : a.toNat < 8 ∧ b.toNat < 8 := by simpa [Instr.wellFormed, registerOperandOk] using hwf
      obtain ⟨hka, hkb⟩ : k ≠ ⟨a.toNat, ha⟩ ∧ k ≠ ⟨b.toNat, hb⟩ := by simpa [regsRead, Fin.ext_iff] using hread
      simp only [exec_mul_of_lt ha hb, mapNext, State.reg_setReg, if_neg hka, if_neg hkb,
        State.setReg_comm s (j := k) (k := ⟨a.toNat, ha⟩) (Fin.val_ne_of_ne hka)]
      rfl

/-- Settles O15: a write to an unlisted register commutes with the instruction; LDI overwrites its own. -/
theorem onlyListedRegistersMatter : Obligations.OnlyListedRegistersMatter := by
  refine ⟨fun i s k v => exec_setReg_of_unlisted v, fun s r imm k v hk => ?_⟩
  have hr : r.toNat < 8 := hk ▸ k.isLt
  obtain rfl : k = ⟨r.toNat, hr⟩ := Fin.ext hk
  rw [exec_ldi_of_lt hr, exec_ldi_of_lt hr, State.setReg_setReg]

end Sys2Proof.Machine
end

section
/-! PROOFS. The step: it is the cycle of R90; it goes on, halts or fails; and nothing but the fetched bytes plays a part
in it (R90 to R99). -/

namespace Sys2Proof

theorem Opcode.ofByte_eq_none_iff {op : Byte} :
    Opcode.ofByte op = none ↔ op ≠ 0x01#8 ∧ op ≠ 0x47#8 ∧ op ≠ 0x82#8 ∧ op ≠ 0xA2#8 := by
  constructor
  · refine fun h => ⟨?_, ?_, ?_, ?_⟩ <;> rintro rfl <;> revert h <;> decide
  · exact fun ⟨hhlt, hprn, hldi, hmul⟩ => Opcode.ofByte_eq_none hhlt hprn hldi hmul

end Sys2Proof

namespace Sys2Proof.Machine

/-! ### The cases of a step are the branches of the cycle -/

theorem narrow_mul (u v : Byte) : narrow (u.toNat * v.toNat) = BitVec.ofNat 8 (u.toNat * v.toNat) :=
  BitVec.eq_of_toNat_eq (by rw [narrow_mul_toNat, BitVec.toNat_ofNat])

/-- Each case of a step is one branch of the pseudocode of R90. -/
theorem StepCase.eq_cycleOfR90 {s t : State} (c : StepCase s t) : t = cycleOfR90 s := by
  cases c with
  | hlt hp hop => simp [cycleOfR90, hop, Nat.not_le.mpr hp, State.halt]
  | ldi r imm hp hop hr hi h =>
    obtain ⟨h0, h1, h2⟩ : ¬ 256 ≤ s.pc ∧ ¬ 255 ≤ s.pc ∧ ¬ 254 ≤ s.pc := by omega
    subst hr hi
    simp [cycleOfR90, hop, h, h0, h1, h2, State.setReg, State.advance]
  | prn r hp hop hr h =>
    obtain ⟨h0, h1⟩ : ¬ 256 ≤ s.pc ∧ ¬ 255 ≤ s.pc := by omega
    subst hr
    simp [cycleOfR90, hop, h, h0, h1, State.emit, State.advance, State.reg]
  | mul a b hp hop ha hb h h' =>
    obtain ⟨h0, h1, h2⟩ : ¬ 256 ≤ s.pc ∧ ¬ 255 ≤ s.pc ∧ ¬ 254 ≤ s.pc := by omega
    subst ha hb
    simp [cycleOfR90, hop, h, h', h0, h1, h2, State.setReg, State.advance, State.reg, narrow_mul]
  | firstIndex r hp hop hr h =>
    obtain ⟨h0, h1⟩ : ¬ 256 ≤ s.pc ∧ ¬ 255 ≤ s.pc := by omega
    subst hr
    obtain hop | ⟨hp2, hop⟩ := hop
    · simp [cycleOfR90, hop, Nat.not_lt.mpr h, h0, h1]
    · have h2 : ¬ 254 ≤ s.pc := by omega
      obtain hop | hop := hop <;> simp [cycleOfR90, hop, Nat.not_lt.mpr h, h0, h1, h2]
  | secondIndex a b hp hop ha hb h h' =>
    obtain ⟨h0, h1, h2⟩ : ¬ 256 ≤ s.pc ∧ ¬ 255 ≤ s.pc ∧ ¬ 254 ≤ s.pc := by omega
    subst ha hb
    simp [cycleOfR90, hop, h, Nat.not_lt.mpr h', h0, h1, h2]
  | illegal hp hop =>
    obtain ⟨hhlt, hprn, hldi, hmul⟩ := Opcode.ofByte_eq_none_iff.mp hop
    simp [cycleOfR90, Nat.not_le.mpr hp, hhlt, hprn, hldi, hmul]
  | opcodeFetch hp => simp [cycleOfR90, hp]
  | firstOperand hp hop =>
    rw [hp] at hop
    obtain hop | hop | hop := hop <;> simp [cycleOfR90, hp, hop]
  | secondOperand hp hop =>
    rw [hp] at hop
    obtain hop | hop := hop <;> simp [cycleOfR90, hp, hop]

/-- Settles O16: a running core steps by one of the cases, and each is a branch of the cycle. -/
theorem stepIsTheCycleOfTheEngine : Obligations.StepIsTheCycleOfTheEngine := by
  intro s hrun
  obtain ⟨t, hstep, hcase⟩ := step_of_running hrun
  rw [hstep, hcase.eq_cycleOfR90]

/-- The cases are also sufficient: where one holds, it is the step. -/
theorem step_of_stepCase {s t : State} (hrun : s.run = .running) (c : StepCase s t) : step s = .next t := by
  rw [stepIsTheCycleOfTheEngine s hrun, c.eq_cycleOfR90]

theorem StepCase.unique {s t u : State} (ct : StepCase s t) (cu : StepCase s u) : t = u :=
  ct.eq_cycleOfR90.trans cu.eq_cycleOfR90.symm

/-! ### Where a step exists -/

theorem step_of_halted {s : State} (h : s.run = .halted) : step s = .fault .halted := by
  simp [step, h, stopped]

theorem step_of_faulted {s : State} {f : Failure} (h : s.run = .faulted f) : step s = .fault (.faulted f) := by
  simp [step, h, stopped]

/-- Settles O17: one case per run state. -/
theorem stepExistsExactlyWhenRunning : Obligations.StepExistsExactlyWhenRunning := by
  intro s
  cases hrun : s.run with
  | running =>
    obtain ⟨t, hstep, _⟩ := step_of_running hrun
    simp [hstep]
  | halted => simp [step_of_halted hrun]
  | faulted f => simp [step_of_faulted hrun]

/-! ### A step goes on, halts or fails -/

/-- What holds between a state and the next where the run goes on: the pc moves by an instruction's length inside
memory, and at most one value is emitted. -/
structure State.GoesOn (s t : State) : Prop where
  run_eq : t.run = s.run
  mem_eq : t.mem = s.mem
  pc_eq : t.pc = s.pc + 2 ∨ t.pc = s.pc + 3
  pc_le : t.pc ≤ 256
  out_eq : t.out = s.out ∨ ∃ v, t.out = s.out ++ [v]

/-- The failures a step can raise, with their information (R120). -/
def StepFailure (f : Failure) : Prop :=
  (∃ a, f = .addressOutOfRange .mem a ∧ 256 ≤ a) ∨ (∃ i, f = .addressOutOfRange .reg i ∧ 8 ≤ i ∧ i ≤ 255) ∨
    ∃ op p, f = .illegalInstruction op p

theorem stepFailure_mem {a : Nat} (h : 256 ≤ a) : StepFailure (.addressOutOfRange .mem a) := .inl ⟨a, rfl, h⟩

theorem stepFailure_reg {r : Byte} (h : 8 ≤ r.toNat) : StepFailure (.addressOutOfRange .reg r.toNat) :=
  .inr (.inl ⟨r.toNat, rfl, h, Nat.le_of_lt_succ r.isLt⟩)

theorem StepCase.goesOn_or_halts_or_fails {s t : State} (c : StepCase s t) :
    s.GoesOn t ∨ (t = s.halt ∧ s.pc < 256 ∧ s.mem.read s.pc = 0x01#8) ∨ ∃ f, t = s.raise f ∧ StepFailure f := by
  cases c with
  | hlt hp hop => exact .inr (.inl ⟨rfl, hp, hop⟩)
  | ldi r imm hp => exact .inl ⟨rfl, rfl, .inr rfl, hp, .inl rfl⟩
  | prn r hp => exact .inl ⟨rfl, rfl, .inl rfl, hp, .inr ⟨_, rfl⟩⟩
  | mul a b hp => exact .inl ⟨rfl, rfl, .inr rfl, hp, .inl rfl⟩
  | firstIndex r hp hop hr h => exact .inr (.inr ⟨_, rfl, stepFailure_reg h⟩)
  | secondIndex a b hp hop ha hb h h' => exact .inr (.inr ⟨_, rfl, stepFailure_reg h'⟩)
  | illegal hp hop => exact .inr (.inr ⟨_, rfl, .inr (.inr ⟨_, _, rfl⟩)⟩)
  | opcodeFetch hp => exact .inr (.inr ⟨_, rfl, stepFailure_mem hp⟩)
  | firstOperand hp hop | secondOperand hp hop => exact .inr (.inr ⟨_, rfl, stepFailure_mem (Nat.le_refl 256)⟩)

/-- The same of a step that has a next state. -/
theorem step_goesOn_or_halts_or_fails {s t : State} (h : step s = .next t) :
    s.GoesOn t ∨ (t = s.halt ∧ s.pc < 256 ∧ s.mem.read s.pc = 0x01#8) ∨ ∃ f, t = s.raise f ∧ StepFailure f :=
  (step_next h).2.goesOn_or_halts_or_fails

theorem step_mem {s t : State} (h : step s = .next t) : t.mem = s.mem := by
  obtain hgo | ⟨rfl, _⟩ | ⟨f, rfl, _⟩ := step_goesOn_or_halts_or_fails h
  · exact hgo.mem_eq
  · rfl
  · rfl

theorem step_out {s t : State} (h : step s = .next t) : t.out = s.out ∨ ∃ v, t.out = s.out ++ [v] := by
  obtain hgo | ⟨rfl, _⟩ | ⟨f, rfl, _⟩ := step_goesOn_or_halts_or_fails h
  · exact hgo.out_eq
  · exact .inl rfl
  · exact .inl rfl

/-- A step that ends in a failure is that failure raised, and it is one of the three. -/
theorem step_next_faulted {s t : State} {f : Failure} (h : step s = .next t) (hf : t.run = .faulted f) :
    t = s.raise f ∧ StepFailure f := by
  obtain hgo | ⟨rfl, _⟩ | ⟨g, rfl, hg⟩ := step_goesOn_or_halts_or_fails h
  · rw [hgo.run_eq, (step_next h).1] at hf
    cases hf
  · cases hf
  · cases hf
    exact ⟨rfl, hg⟩

/-- Settles O20: no step writes memory, so no run does. -/
theorem memoryIsConstantDuringARun : Obligations.MemoryIsConstantDuringARun :=
  ⟨fun _ _ => step_mem, fun s =>
    runFor_keeps (P := fun t => t.mem = s.mem) (fun _ _ hu h => (step_mem h).trans hu) _ s rfl⟩

/-- Settles O21: going on moves the pc, halting and failing leave it. -/
theorem controlFlowIsStrictlySequential : Obligations.ControlFlowIsStrictlySequential := by
  intro s t h
  obtain hgo | ⟨rfl, _⟩ | ⟨f, rfl, _⟩ := step_goesOn_or_halts_or_fails h
  · exact ⟨fun _ => hgo.pc_eq, fun hne => absurd (hgo.run_eq.trans (step_next h).1) hne⟩
  · exact ⟨nofun, fun _ => rfl⟩
  · exact ⟨nofun, fun _ => rfl⟩

/-- Settles O22: PRN's case is the one that writes the output. -/
theorem onlyPrnAddsOutput : Obligations.OnlyPrnAddsOutput := by
  intro s t hstep
  obtain ⟨hrun, hcase⟩ := step_next hstep
  cases hcase with
  | prn r hp hop hr h =>
    subst hr
    exact .inr ⟨hop, hrun, h, rfl⟩
  | _ => exact .inl rfl

/-- Settles O23: the cases of LDI and MUL are the ones that write a register. -/
theorem onlyLdiAndMulWriteARegister : Obligations.OnlyLdiAndMulWriteARegister := by
  intro s t k hk hstep hne
  obtain ⟨_, hcase⟩ := step_next hstep
  cases hcase with
  | ldi r imm hp hop hr hi h =>
    subst hr
    exact ⟨.inl hop, by_contra fun hkr => hne (State.setReg_x_ne s hk hkr imm)⟩
  | mul a b hp hop ha hb h h' =>
    subst ha
    exact ⟨.inr hop, by_contra fun hka => hne (State.setReg_x_ne s hk hka _)⟩
  | _ => exact absurd rfl hne

/-! ### What plays no part in a step -/

/-- The cases of a step with values put before the output (R29). -/
theorem StepCase.prependOut {s t : State} (c : StepCase s t) (p : List Byte) :
    StepCase { s with out := p ++ s.out } { t with out := p ++ t.out } := by
  cases c with
  | hlt hp hop => exact .hlt hp hop
  | ldi r imm hp hop hr hi h => exact .ldi (s := { s with out := p ++ s.out }) r imm hp hop hr hi h
  | prn r hp hop hr h =>
    have := StepCase.prn (s := { s with out := p ++ s.out }) r hp hop hr h
    rwa [State.emit, State.advance, List.append_assoc] at this
  | mul a b hp hop ha hb h h' => exact .mul (s := { s with out := p ++ s.out }) a b hp hop ha hb h h'
  | firstIndex r hp hop hr h => exact .firstIndex r hp hop hr h
  | secondIndex a b hp hop ha hb h h' => exact .secondIndex a b hp hop ha hb h h'
  | illegal hp hop => exact .illegal hp hop
  | opcodeFetch hp => exact .opcodeFetch hp
  | firstOperand hp hop => exact .firstOperand hp hop
  | secondOperand hp hop => exact .secondOperand hp hop

/-- An edit of the state that leaves the run state and maps each case of the step to a case maps the step. -/
theorem step_mapNext {s : State} {g : State → State} (hrun : (g s).run = s.run)
    (hcase : ∀ t, StepCase s t → StepCase (g s) (g t)) : step (g s) = mapNext g (step s) := by
  cases hs : s.run with
  | running =>
    obtain ⟨t, hstep, c⟩ := step_of_running hs
    rw [hstep, step_of_stepCase (hrun.trans hs) (hcase t c)]
    rfl
  | halted => rw [step_of_halted hs, step_of_halted (hrun.trans hs)]; rfl
  | faulted f => rw [step_of_faulted hs, step_of_faulted (hrun.trans hs)]; rfl

/-- Settles O24: the values before the output pass through every case. -/
theorem outputIsNeverRead : Obligations.OutputIsNeverRead := fun s p =>
  step_mapNext (s := s) (g := fun t => { t with out := p ++ t.out }) rfl fun _ c => c.prependOut p

theorem fetchedBytes_eq {s : State} {o : Opcode} (h : Opcode.ofByte (s.mem.read s.pc) = some o) :
    fetchedBytes s = o.length := by
  simp [fetchedBytes, h]

theorem fetchedBytes_pos (s : State) : 0 < fetchedBytes s := by
  unfold fetchedBytes
  split
  · next o _ => cases o <;> decide
  · decide

/-- The cases of a step over another memory that holds the same bytes where the step fetches (R73). -/
theorem StepCase.withMem {s t : State} (c : StepCase s t) {m : Memory}
    (hm : ∀ k < fetchedBytes s, m.read (s.pc + k) = s.mem.read (s.pc + k)) :
    StepCase { s with mem := m } { t with mem := m } := by
  have hop' : m.read s.pc = s.mem.read s.pc := hm 0 (fetchedBytes_pos s)
  cases c with
  | hlt hp hop => exact .hlt hp (hop'.trans hop)
  | ldi r imm hp hop hr hi h =>
    have hlen : fetchedBytes s = 3 := fetchedBytes_eq (o := .ldi) (hop ▸ by decide)
    exact .ldi (s := { s with mem := m }) r imm hp (hop'.trans hop) ((hm 1 (by omega)).trans hr) ((hm 2 (by omega)).trans hi) h
  | prn r hp hop hr h =>
    have hlen : fetchedBytes s = 2 := fetchedBytes_eq (o := .prn) (hop ▸ by decide)
    exact .prn (s := { s with mem := m }) r hp (hop'.trans hop) ((hm 1 (by omega)).trans hr) h
  | mul a b hp hop ha hb h h' =>
    have hlen : fetchedBytes s = 3 := fetchedBytes_eq (o := .mul) (hop ▸ by decide)
    exact .mul (s := { s with mem := m }) a b hp (hop'.trans hop) ((hm 1 (by omega)).trans ha) ((hm 2 (by omega)).trans hb) h h'
  | firstIndex r hp hop hr h =>
    have hlen : 1 < fetchedBytes s := by
      obtain hop | ⟨_, hop | hop⟩ := hop
      · rw [fetchedBytes_eq (o := .prn) (hop ▸ by decide)]; decide
      · rw [fetchedBytes_eq (o := .ldi) (hop ▸ by decide)]; decide
      · rw [fetchedBytes_eq (o := .mul) (hop ▸ by decide)]; decide
    exact .firstIndex r hp (by rwa [← hop'] at hop) ((hm 1 hlen).trans hr) h
  | secondIndex a b hp hop ha hb h h' =>
    have hlen : fetchedBytes s = 3 := fetchedBytes_eq (o := .mul) (hop ▸ by decide)
    exact .secondIndex a b hp (hop'.trans hop) ((hm 1 (by omega)).trans ha) ((hm 2 (by omega)).trans hb) h h'
  | illegal hp hop =>
    rw [← hop'] at hop ⊢
    exact .illegal hp hop
  | opcodeFetch hp => exact .opcodeFetch hp
  | firstOperand hp hop => exact .firstOperand hp (by rwa [← hop'] at hop)
  | secondOperand hp hop => exact .secondOperand hp (by rwa [← hop'] at hop)

/-- Settles O25: every case reads no byte but the fetched ones. -/
theorem unfetchedBytesHaveNoEffect : Obligations.UnfetchedBytesHaveNoEffect := fun s m hm =>
  step_mapNext (s := s) (g := fun t => { t with mem := m }) rfl fun _ c => c.withMem hm

end Sys2Proof.Machine
end

section
/-! PROOFS. How a run ends: the exact conditions of HLT and of each failure, and what the end leaves (R97, R98, R120 to
R132). -/

namespace Sys2Proof.Machine

/-! ### The run from a state whose next step ends it -/

theorem run_of_not_running {s : State} (h : s.run ≠ .running) : run s = s := runFor_stopped h

theorem run_of_last_step {s t : State} (hstep : step s = .next t) (hend : t.run ≠ .running) : run s = t := by
  rw [run, Config.maxRunSteps, runFor, hstep]
  exact runFor_stopped hend

/-- Settles O18: of the three outcomes of a step only HLT's is halted, and the run stops there. -/
theorem onlyHltEndsARunNormally : Obligations.OnlyHltEndsARunNormally := by
  intro s hrun
  have hhlt (hp : s.pc < 256) (hop : s.mem.read s.pc = 0x01#8) : step s = .next s.halt :=
    step_of_stepCase hrun (.hlt hp hop)
  refine ⟨⟨fun ⟨t, hstep, ht⟩ => ?_, fun ⟨hp, hop⟩ => ⟨_, hhlt hp hop, rfl⟩⟩, fun hp hop => ?_⟩
  · obtain hgo | ⟨rfl, hp, hop⟩ | ⟨f, rfl, _⟩ := step_goesOn_or_halts_or_fails hstep
    · rw [hgo.run_eq, hrun] at ht
      cases ht
    · exact ⟨hp, hop⟩
    · cases ht
  · have hend : run s = s.halt := run_of_last_step (hhlt hp hop) nofun
    exact ⟨hhlt hp hop, step_of_halted rfl, hend, by rw [hend]; rfl⟩

/-- Settles O19: the step of a failed core is a fault, so there is no next state to go to. -/
theorem noStepFollowsAFailure : Obligations.NoStepFollowsAFailure := by
  intro s f hf
  have hstep := step_of_faulted hf
  have hend : run s = s := run_of_not_running (hf ▸ nofun)
  refine ⟨hstep, fun n t hst => ?_, hend, by rw [hend, hf]; rfl⟩
  cases n with
  | zero => exact ⟨rfl, hst.symm⟩
  | succ n =>
    obtain ⟨u, hu, _⟩ := hst
    cases hstep.symm.trans hu

/-! ### Which failure, and when -/

/-- Settles O26: the failed step is the failure raised. -/
theorem failedStepChangesOnlyTheRunState : Obligations.FailedStepChangesOnlyTheRunState :=
  fun _ _ _ _ => step_next_faulted

/-- A memory failure of a step inside 0..256 is one of the three fetches at the end of memory (R122). -/
theorem StepCase.of_memory_failure {s t : State} {a : Nat} (c : StepCase s t) (hrun : s.run = .running)
    (hpc : s.pc ≤ 256) (hf : t.run = .faulted (.addressOutOfRange .mem a)) :
    a = 256 ∧ (s.pc = 256 ∨
      (s.pc = 255 ∧ (s.mem.read 255 = 0x47#8 ∨ s.mem.read 255 = 0x82#8 ∨ s.mem.read 255 = 0xA2#8)) ∨
      (s.pc = 254 ∧ (s.mem.read 254 = 0x82#8 ∨ s.mem.read 254 = 0xA2#8))) := by
  cases c with
  | opcodeFetch hp =>
    cases hf
    have hpc256 := Nat.le_antisymm hpc hp
    exact ⟨hpc256, .inl hpc256⟩
  | firstOperand hp hop =>
    cases hf
    exact ⟨rfl, .inr (.inl ⟨hp, hp ▸ hop⟩)⟩
  | secondOperand hp hop =>
    cases hf
    exact ⟨rfl, .inr (.inr ⟨hp, hp ▸ hop⟩)⟩
  | _ => simp [hrun] at hf

/-- Settles O27: the three fetches at the end of memory are cases of a step, and the only ones that fail so. -/
theorem memoryFailureOnlyAtTheEndOfMemory : Obligations.MemoryFailureOnlyAtTheEndOfMemory := by
  intro s t a hrun hpc hstep
  obtain ⟨_, hcase⟩ := step_next hstep
  refine ⟨hcase.of_memory_failure hrun hpc, ?_⟩
  rintro ⟨rfl, hp | ⟨hp, hop⟩ | ⟨hp, hop⟩⟩
  · rw [hcase.unique (.opcodeFetch hp.ge), hp]
    rfl
  · rw [hcase.unique (.firstOperand hp (by rwa [hp]))]
    rfl
  · rw [hcase.unique (.secondOperand hp (by rwa [hp]))]
    rfl

theorem bytesAt_ldi {m : Memory} {p : Nat} {r imm : Byte} : bytesAt m p (encode (.ldi r imm)) = true ↔
    p + 2 < 256 ∧ m.read p = 0x82#8 ∧ m.read (p + 1) = r ∧ m.read (p + 2) = imm := by
  simp only [bytesAt, encode, Opcode.pattern, Bool.and_eq_true, decide_eq_true_iff]
  grind

theorem bytesAt_prn {m : Memory} {p : Nat} {r : Byte} : bytesAt m p (encode (.prn r)) = true ↔
    p + 1 < 256 ∧ m.read p = 0x47#8 ∧ m.read (p + 1) = r := by
  simp only [bytesAt, encode, Opcode.pattern, Bool.and_eq_true, decide_eq_true_iff]
  grind

theorem bytesAt_mul {m : Memory} {p : Nat} {a b : Byte} : bytesAt m p (encode (.mul a b)) = true ↔
    p + 2 < 256 ∧ m.read p = 0xA2#8 ∧ m.read (p + 1) = a ∧ m.read (p + 2) = b := by
  simp only [bytesAt, encode, Opcode.pattern, Bool.and_eq_true, decide_eq_true_iff]
  grind

/-- A register failure comes from an instruction whose bytes stand whole at the program counter (R123). -/
theorem StepCase.of_register_failure {s t : State} {ix : Nat} (c : StepCase s t) (hrun : s.run = .running)
    (hf : t.run = .faulted (.addressOutOfRange .reg ix)) :
    ∃ i : Instr, bytesAt s.mem s.pc (encode i) = true ∧ firstBadIndex i = some ix := by
  cases c with
  | firstIndex r hp hop hr h =>
    cases hf
    obtain hop | ⟨hp2, hop | hop⟩ := hop
    · exact ⟨.prn r, bytesAt_prn.mpr ⟨hp, hop, hr⟩, if_pos h⟩
    · exact ⟨.ldi r (s.mem.read (s.pc + 2)), bytesAt_ldi.mpr ⟨hp2, hop, hr, rfl⟩, if_pos h⟩
    · exact ⟨.mul r (s.mem.read (s.pc + 2)), bytesAt_mul.mpr ⟨hp2, hop, hr, rfl⟩, if_pos h⟩
  | secondIndex a b hp hop ha hb h h' =>
    cases hf
    exact ⟨.mul a b, bytesAt_mul.mpr ⟨hp, hop, ha, hb⟩, (if_neg (Nat.not_le.mpr h)).trans (if_pos h')⟩
  | _ => simp [hrun] at hf

/-- Settles O28: a register failure is the first bad index of the instruction at the program counter. -/
theorem registerFailureExactlyOnABadIndex : Obligations.RegisterFailureExactlyOnABadIndex := by
  intro s ix hrun
  have hexact {t : State} (hstep : step s = .next t) (hf : t.run = .faulted (.addressOutOfRange .reg ix)) :
      ∃ i : Instr, bytesAt s.mem s.pc (encode i) = true ∧ firstBadIndex i = some ix :=
    (step_next hstep).2.of_register_failure hrun hf
  refine ⟨⟨fun hstep => hexact hstep rfl, fun ⟨i, hbytes, hbad⟩ => ?_⟩, fun t hstep hf => ?_,
    fun i t f hbytes hbad hstep hf => ?_⟩
  · rw [step_of_bytesAt hrun hbytes, exec_of_firstBadIndex hbad]
    rfl
  · obtain ⟨i, _, hbad⟩ := hexact hstep hf
    exact ⟨(step_next_faulted hstep hf).1, firstBadIndex_range hbad⟩
  · obtain ⟨u, hu, hhlt, hgo⟩ := wellFormedInstructionsComplete s i hrun ((wellFormed_iff_firstBadIndex i).mpr hbad) hbytes
    cases hstep.symm.trans hu
    by_cases hi : i = .hlt
    · cases (hhlt hi).symm.trans hf
    · cases (hgo hi).symm.trans hf

/-- An illegal-instruction failure names the byte at the program counter, which no row of the table has (R124). -/
theorem StepCase.of_illegal_failure {s t : State} {op : Byte} {p : Nat} (c : StepCase s t) (hrun : s.run = .running)
    (hf : t.run = .faulted (.illegalInstruction op p)) :
    s.pc < 256 ∧ p = s.pc ∧ op = s.mem.read s.pc ∧ Opcode.ofByte op = none := by
  cases c with
  | illegal hp hop =>
    cases hf
    exact ⟨hp, rfl, rfl, hop⟩
  | _ => simp [hrun] at hf

/-- Settles O29: the case of an illegal opcode, in both directions. -/
theorem illegalOpcodeFailsByName : Obligations.IllegalOpcodeFailsByName := by
  intro s op p hrun
  constructor
  · intro hstep
    obtain ⟨hp, hpc, hop, hnone⟩ := (step_next hstep).2.of_illegal_failure hrun rfl
    exact ⟨hp, hpc, hop, Opcode.ofByte_eq_none_iff.mp hnone⟩
  · rintro ⟨hp, rfl, rfl, hne⟩
    exact step_of_stepCase hrun (.illegal hp (Opcode.ofByte_eq_none_iff.mpr hne))

theorem step_of_zero_byte {s : State} (hrun : s.run = .running) (hp : s.pc < 256) (h0 : s.mem.read s.pc = 0) :
    step s = .next { s with run := .faulted (.illegalInstruction 0 s.pc) } :=
  (illegalOpcodeFailsByName s 0 s.pc hrun).mpr ⟨hp, rfl, h0.symm, by decide⟩

/-- Settles O30: the zero byte is an illegal opcode, and after reset the first step meets it. -/
theorem unloadedMemoryEndsTheRun : Obligations.UnloadedMemoryEndsTheRun :=
  ⟨fun _ => step_of_zero_byte, run_of_last_step (step_of_zero_byte (s := State.reset) rfl (by decide) rfl) nofun⟩

end Sys2Proof.Machine
end

section
/-! PROOFS. The register file and the ALU: index checks, the values of the four operations, and what they leave
(R20 to R23, R80 to R89). -/

namespace Sys2Proof.Machine

/-! ### Register accesses -/

/-- A checked write of one index leaves the read of every other index byte, in range or not. -/
theorem regRead_setReg_ne {i j : Byte} (s : State) (hi : i.toNat < 8) (hne : j ≠ i) (v : Byte) :
    regRead j (s.setReg ⟨i.toNat, hi⟩ v) = regRead j s := by
  obtain hj | hj := Nat.lt_or_ge j.toNat 8
  · have hij : i.toNat ≠ j.toNat := fun e => hne (BitVec.eq_of_toNat_eq e.symm)
    simp [regRead_of_lt _ hj, State.reg_setReg, hij]
  · rw [regRead_of_ge _ hj, regRead_of_ge _ hj]

/-- Settles O37: the index is below 8, and names a register, or the access fails with it. -/
theorem registerAccessChecksTheWholeIndex : Obligations.RegisterAccessChecksTheWholeIndex := by
  intro s i v
  refine ⟨fun hi => ⟨regRead_of_lt s hi, _, regWrite_of_lt v s hi, ?_, fun j hne => regRead_setReg_ne s hi hne v,
    rfl, rfl, rfl, rfl⟩, fun hi => ⟨regRead_of_ge s hi, regWrite_of_ge v s hi⟩⟩
  rw [regRead_of_lt _ hi, State.reg_setReg, if_pos rfl]

/-! ### What the ALU answers -/

theorem alu_of_dest_ge {d : Byte} (hd : 8 ≤ d.toNat) (op : AluOp) (s : Byte) (st : State) :
    alu op d s st = .error (.addressOutOfRange .reg d.toNat) := by
  simp [alu, regRead_of_ge st hd, bind, Except.bind]

theorem alu_of_source_ge {d s : Byte} (hd : d.toNat < 8) (hs : 8 ≤ s.toNat) (op : AluOp) (st : State) :
    alu op d s st = .error (.addressOutOfRange .reg s.toNat) := by
  simp [alu, regRead_of_lt st hd, regRead_of_ge st hs, bind, Except.bind]

theorem alu_of_result_ok {op : AluOp} {d s v : Byte} {st : State} (hd : d.toNat < 8) (hs : s.toNat < 8)
    (h : aluResult op d s st.x[d.toNat] st.x[s.toNat] = .ok v) : alu op d s st = .ok (st.setReg ⟨d.toNat, hd⟩ v) := by
  rw [alu_of_lt st hd hs, State.reg_eq, State.reg_eq, h]
  rfl

theorem alu_of_result_error {op : AluOp} {d s : Byte} {f : Failure} {st : State} (hd : d.toNat < 8) (hs : s.toNat < 8)
    (h : aluResult op d s st.x[d.toNat] st.x[s.toNat] = .error f) : alu op d s st = .error f := by
  rw [alu_of_lt st hd hs, State.reg_eq, State.reg_eq, h]
  rfl

/-- An operation on two registers that exist is decided by its result. -/
theorem alu_of_result {op : AluOp} {d s : Byte} (st : State) (hd : d.toNat < 8) (hs : s.toNat < 8) :
    (∃ v, aluResult op d s st.x[d.toNat] st.x[s.toNat] = .ok v ∧ alu op d s st = .ok (st.setReg ⟨d.toNat, hd⟩ v)) ∨
      ∃ f, aluResult op d s st.x[d.toNat] st.x[s.toNat] = .error f ∧ alu op d s st = .error f := by
  cases h : aluResult op d s st.x[d.toNat] st.x[s.toNat] with
  | ok v => exact .inl ⟨v, rfl, alu_of_result_ok hd hs h⟩
  | error f => exact .inr ⟨f, rfl, alu_of_result_error hd hs h⟩

/-- Everything a completed ALU operation has done. -/
theorem alu_ok {op : AluOp} {d s : Byte} {st t : State} (h : alu op d s st = .ok t) :
    ∃ (hd : d.toNat < 8) (hs : s.toNat < 8) (v : Byte),
      aluResult op d s st.x[d.toNat] st.x[s.toNat] = .ok v ∧ t = st.setReg ⟨d.toNat, hd⟩ v := by
  obtain hd | hd := Nat.lt_or_ge d.toNat 8
  · obtain hs | hs := Nat.lt_or_ge s.toNat 8
    · obtain ⟨v, hv, e⟩ | ⟨f, _, e⟩ := alu_of_result (op := op) st hd hs <;> cases e.symm.trans h
      exact ⟨hd, hs, v, hv, rfl⟩
    · cases (alu_of_source_ge hd hs op st).symm.trans h
  · cases (alu_of_dest_ge hd op s st).symm.trans h

/-- Everything a failed ALU operation can have failed with. -/
theorem alu_error {op : AluOp} {d s : Byte} {st : State} {f : Failure} (h : alu op d s st = .error f) :
    (∃ i, f = .addressOutOfRange .reg i) ∨
      ∃ (_ : d.toNat < 8) (_ : s.toNat < 8), aluResult op d s st.x[d.toNat] st.x[s.toNat] = .error f := by
  obtain hd | hd := Nat.lt_or_ge d.toNat 8
  · obtain hs | hs := Nat.lt_or_ge s.toNat 8
    · obtain ⟨v, _, e⟩ | ⟨g, hg, e⟩ := alu_of_result (op := op) st hd hs <;> cases e.symm.trans h
      exact .inr ⟨hd, hs, hg⟩
    · cases (alu_of_source_ge hd hs op st).symm.trans h
      exact .inl ⟨_, rfl⟩
  · cases (alu_of_dest_ge hd op s st).symm.trans h
    exact .inl ⟨_, rfl⟩

/-- Only DIV by 0 has no result, and its failure carries the operation and the operands (R125). -/
theorem aluResult_error {op : AluOp} {d s vd vs : Byte} {f : Failure} (h : aluResult op d s vd vs = .error f) :
    op = .div ∧ vs = 0 ∧ f = .divisionByZero .div d s vd vs := by
  cases op with
  | add | sub | mul => cases h
  | div =>
    simp only [aluResult] at h
    split at h
    · next h0 => cases h; exact ⟨rfl, h0, rfl⟩
    · cases h

theorem aluResult_div_zero (d s vd : Byte) : aluResult .div d s vd 0 = .error (.divisionByZero .div d s vd 0) := rfl

theorem aluResult_div {vs : Byte} (h : vs ≠ 0) (d s vd : Byte) :
    aluResult .div d s vd vs = .ok (narrow (vd.toNat / vs.toNat : Nat)) := if_neg h

/-! ### The values -/

theorem narrow_add_toNat (u v : Byte) : (narrow (u.toNat + v.toNat)).toNat = (u.toNat + v.toNat) % 256 := by
  rw [← narrow_toNat, Nat.cast_add]

theorem narrow_toNat_int (v : Int) : ((narrow v).toNat : Int) = v % 256 := by
  rw [narrow, BitVec.toNat_ofInt]
  exact Int.toNat_of_nonneg (Int.emod_nonneg v (by decide))

/-- A quotient of two bytes fits a byte (R85). -/
theorem narrow_div_toNat (u v : Byte) : (narrow (u.toNat / v.toNat : Nat)).toNat = u.toNat / v.toNat := by
  rw [narrow_toNat]
  exact Nat.mod_eq_of_lt (Nat.lt_of_le_of_lt (Nat.div_le_self _ _) u.isLt)

/-- An operation that has a result completes and leaves it in the destination. -/
theorem alu_writes {op : AluOp} {d s v : Byte} {st : State} (hd : d.toNat < 8) (hs : s.toNat < 8)
    (h : aluResult op d s st.x[d.toNat] st.x[s.toNat] = .ok v) : ∃ t, alu op d s st = .ok t ∧ t.x[d.toNat] = v :=
  ⟨_, alu_of_result_ok hd hs h, State.setReg_x_same st hd v⟩

/-- Settles O31: each operation's result, narrowed. -/
theorem aluWritesTheResult : Obligations.AluWritesTheResult := by
  intro st d s hd hs
  refine ⟨?add, ?sub, ?mul, fun hne => ?div⟩
  case add =>
    obtain ⟨t, e, hv⟩ := alu_writes (op := .add) hd hs rfl
    exact ⟨t, e, hv ▸ narrow_add_toNat _ _⟩
  case sub =>
    obtain ⟨t, e, hv⟩ := alu_writes (op := .sub) hd hs rfl
    exact ⟨t, e, hv ▸ narrow_toNat_int _⟩
  case mul =>
    obtain ⟨t, e, hv⟩ := alu_writes (op := .mul) hd hs rfl
    exact ⟨t, e, hv ▸ narrow_mul_toNat _ _⟩
  case div =>
    obtain ⟨t, e, hv⟩ := alu_writes hd hs (aluResult_div hne d s _)
    exact ⟨t, e, hv ▸ narrow_div_toNat _ _⟩

/-- Settles O35: the values of the general statement with one register for both. -/
theorem aluOnOneRegisterTwice : Obligations.AluOnOneRegisterTwice := by
  intro st d hd
  obtain ⟨⟨ta, hadd, va⟩, ⟨ts, hsub, vs⟩, ⟨tm, hmul, vm⟩, hdiv⟩ := aluWritesTheResult st d d hd hd
  refine ⟨⟨ta, hadd, ?_⟩, ⟨ts, hsub, ?_⟩, ⟨tm, hmul, ?_⟩, fun hne => ?_, fun h0 => ?_⟩
  · rw [va, Nat.two_mul]
  · rw [Int.sub_self, Int.zero_emod] at vs
    exact BitVec.eq_of_toNat_eq (Int.ofNat_inj.mp vs)
  · rw [vm, Nat.pow_two]
  · obtain ⟨td, e, vd⟩ := hdiv hne
    have hpos : 0 < st.x[d.toNat].toNat := Nat.pos_of_ne_zero fun e0 => hne (BitVec.eq_of_toNat_eq e0)
    exact ⟨td, e, BitVec.eq_of_toNat_eq (vd.trans (Nat.div_self hpos))⟩
  · refine alu_of_result_error hd hd ?_
    rw [h0]
    exact aluResult_div_zero d d 0

/-! ### Failures and frame -/

/-- No step of any state ends in a failure that is none of the three. -/
theorem step_not_faulted {s t : State} {f : Failure} (hstep : step s = .next t) (hf : ¬ StepFailure f) :
    t.run ≠ .faulted f :=
  fun h => hf (step_next_faulted hstep h).2

/-- Settles O32: the only result that is a failure is that of DIV by 0, and no step raises it. -/
theorem divisionByZeroOnlyInTheAlu : Obligations.DivisionByZeroOnlyInTheAlu := by
  refine ⟨fun st d s hd hs h0 => ?_, fun st op op' d s d' s' vd vs h => ?_,
    fun _ _ _ _ _ _ _ _ hstep => step_not_faulted hstep (by simp [StepFailure])⟩
  · refine alu_of_result_error hd hs ?_
    rw [h0]
    exact aluResult_div_zero d s _
  · obtain ⟨i, hi⟩ | ⟨_, _, hres⟩ := alu_error h
    · cases hi
    · obtain ⟨hop, h0, hf⟩ := aluResult_error hres
      cases hf
      exact ⟨hop, h0⟩

/-- Settles O33: the destination's check is the first read, the source's the second. -/
theorem aluChecksDestinationThenSource : Obligations.AluChecksDestinationThenSource :=
  fun st op _ s => ⟨fun hd => alu_of_dest_ge hd op s st, fun hd hs => alu_of_source_ge hd hs op st⟩

/-- Settles O34: a completed operation is one register write of a result of the two values. -/
theorem aluTouchesOnlyItsDestination : Obligations.AluTouchesOnlyItsDestination := by
  constructor
  · intro st t op d s h
    obtain ⟨hd, _, v, _, rfl⟩ := alu_ok h
    exact ⟨rfl, rfl, rfl, rfl, fun k hk hne => State.setReg_x_ne st hk hne v⟩
  · intro st st' t t' op d s hd hs hvd hvs h h'
    obtain ⟨_, _, v, hv, rfl⟩ := alu_ok h
    obtain ⟨_, _, v', hv', rfl⟩ := alu_ok h'
    rw [hvd, hvs, hv] at hv'
    cases hv'
    rw [State.setReg_x_same, State.setReg_x_same]

theorem aluOpOfSymbol_unknown {y : String} (hadd : y ≠ "ADD") (hsub : y ≠ "SUB") (hmul : y ≠ "MUL") (hdiv : y ≠ "DIV") :
    aluOpOfSymbol y = .error (.unsupportedOperation y) := by
  simp only [aluOpOfSymbol, if_neg hadd, if_neg hsub, if_neg hmul, if_neg hdiv]

/-- Settles O36: the symbol table, and the failures a step can raise. -/
theorem unknownAluSymbolIsUnsupported : Obligations.UnknownAluSymbolIsUnsupported := by
  refine ⟨fun d s st => ⟨rfl, rfl, rfl, rfl⟩, fun y d s st hadd hsub hmul hdiv => ?_,
    fun _ _ _ _ hstep => step_not_faulted hstep (by simp [StepFailure])⟩
  simp only [aluApply, aluOpOfSymbol_unknown hadd hsub hmul hdiv, bind, Except.bind]

end Sys2Proof.Machine
end

section
/-! PROOFS. Memory, reset and `load`: the canonical list is fixed by its reads, a write sets one cell, and an image is
installed cell by cell (R33, R34, R42, R150 to R157). -/

namespace Sys2Proof.Machine

/-! ### The canonical form -/

theorem Memory.read_cons_same (m : Memory) (a : Nat) (v : Byte) : Memory.read ((a, v) :: m) a = v := if_pos rfl

theorem Memory.read_cons_ne (m : Memory) {a k : Nat} (v : Byte) (h : a ≠ k) :
    Memory.read ((a, v) :: m) k = m.read k := if_neg h

theorem Memory.read_of_ge {m : Memory} {lo k : Nat} (h : Memory.wfFrom lo m = true) (hk : 256 ≤ k) : m.read k = 0 := by
  induction m generalizing lo with
  | nil => rfl
  | cons c m ih =>
    obtain ⟨a, v⟩ := c
    obtain ⟨_, ha, _, hm⟩ := wfFrom_cons.mp h
    rw [read_cons_ne m v (by omega)]
    exact ih hm

/-- A canonical list reads as unwritten below its first entry, so an address that reads otherwise is not below it. -/
theorem Memory.head_le {m : Memory} {lo a b : Nat} {v : Byte} (h : Memory.wfFrom lo ((a, v) :: m) = true)
    (hb : Memory.read ((a, v) :: m) b ≠ 0) : a ≤ b := by
  obtain ⟨_, ha, hv, hm⟩ := wfFrom_cons.mp h
  by_contra hlt
  exact hb (read_below (wfFrom_cons.mpr ⟨Nat.le_refl a, ha, hv, hm⟩) (Nat.lt_of_not_le hlt))

/-- Induction on the list: equal reads force equal first entries, and tails that read alike. -/
theorem Memory.eq_of_read {m m' : Memory} {lo lo' : Nat} (h : Memory.wfFrom lo m = true)
    (h' : Memory.wfFrom lo' m' = true) (hread : ∀ k, m.read k = m'.read k) : m = m' := by
  induction m generalizing lo lo' m' with
  | nil =>
    match m', h' with
    | [], _ => rfl
    | (b, u) :: m', h' =>
      obtain ⟨_, _, hu, _⟩ := wfFrom_cons.mp h'
      exact absurd ((hread b).trans (read_cons_same m' b u)).symm hu
  | cons c m ih =>
    obtain ⟨a, v⟩ := c
    obtain ⟨_, _, hv, hm⟩ := wfFrom_cons.mp h
    match m', h' with
    | [], _ => exact absurd ((read_cons_same m a v).symm.trans (hread a)) hv
    | (b, u) :: m', h' =>
      obtain ⟨_, _, hu, hm'⟩ := wfFrom_cons.mp h'
      have hab : a ≤ b := head_le h (by rwa [hread, read_cons_same])
      have hba : b ≤ a := head_le h' (by rwa [← hread, read_cons_same])
      obtain rfl := Nat.le_antisymm hab hba
      obtain rfl : v = u := by rw [← read_cons_same m a v, hread, read_cons_same]
      rw [ih hm hm' fun k => ?_]
      by_cases hk : a = k
      · rw [← hk, read_below hm (Nat.lt_succ_self a), read_below hm' (Nat.lt_succ_self a)]
      · rw [← read_cons_ne m v hk, hread, read_cons_ne m' v hk]

/-- Settles O39: extensionality of the canonical list, and that it lists no address from 256 on. -/
theorem canonicalMemoryIsFixedByItsReads : Obligations.CanonicalMemoryIsFixedByItsReads :=
  ⟨fun _ _ hm hm' => Memory.eq_of_read hm hm', fun _ _ hm => Memory.read_of_ge hm⟩

/-! ### The checked write -/

theorem memWrite_of_address_ge {a : Nat} (ha : 256 ≤ a) (v : Nat) (s : State) :
    memWrite a v s = .error (.addressOutOfRange .mem a) := if_pos ha

theorem memWrite_of_value_gt {a v : Nat} (ha : a < 256) (hv : 255 < v) (s : State) :
    memWrite a v s = .error (.invalidOperand v) := (if_neg (Nat.not_le.mpr ha)).trans (if_pos hv)

theorem memWrite_of_le {a v : Nat} (ha : a < 256) (hv : v ≤ 255) (s : State) :
    memWrite a v s = .ok { s with mem := s.mem.write a (BitVec.ofNat 8 v) } :=
  (if_neg (Nat.not_le.mpr ha)).trans (if_neg (Nat.not_lt.mpr hv))

/-- The cell just written reads as the value offered. -/
theorem read_write_ofNat {m : Memory} (hm : m.wf = true) (a : Nat) {v : Nat} (hv : v ≤ 255) :
    ((m.write a (BitVec.ofNat 8 v)).read a).toNat = v := by
  rw [Memory.read_write_same hm, BitVec.toNat_ofNat]
  exact Nat.mod_eq_of_lt (Nat.lt_succ_of_le hv)

/-- Settles O38: one equation per verdict, the reads after a write, and that steps leave memory. -/
theorem memWriteChecksThenSetsOneCell : Obligations.MemWriteChecksThenSetsOneCell := by
  refine ⟨fun s a v => ⟨fun ha => memWrite_of_address_ge ha v s, fun ha hv => memWrite_of_value_gt ha hv s,
    fun ha hv hm => ?_⟩, fun _ _ => step_mem⟩
  exact ⟨_, memWrite_of_le ha hv s, read_write_ofNat hm a hv, fun b hne => Memory.read_write_ne s.mem _ hne,
    Memory.wf_write hm ha _, rfl, rfl, rfl, rfl⟩

/-! ### Writing an image -/

theorem writeImage_cons_ok {v : Nat} {vs : List Nat} {a : Nat} {s t : State} :
    writeImage (v :: vs) a s = .ok t ↔ ∃ u, memWrite a v s = .ok u ∧ writeImage vs (a + 1) u = .ok t := by
  simp only [writeImage, bind, Except.bind]
  cases memWrite a v s <;> simp

/-- An image of bytes that fits above an address is written whole. -/
theorem writeImage_succeeds {vs : List Nat} {a : Nat} (s : State) (hfit : a + vs.length ≤ 256)
    (hvs : ∀ v ∈ vs, v ≤ 255) : ∃ t, writeImage vs a s = .ok t := by
  induction vs generalizing a s with
  | nil => exact ⟨s, rfl⟩
  | cons v vs ih =>
    rw [List.forall_mem_cons] at hvs
    obtain ⟨hv, hvs⟩ := hvs
    rw [List.length_cons] at hfit
    obtain ⟨t, ht⟩ := ih (a := a + 1) { s with mem := s.mem.write a (BitVec.ofNat 8 v) } (by omega) hvs
    exact ⟨t, writeImage_cons_ok.mpr ⟨_, memWrite_of_le (by omega) hv s, ht⟩⟩

/-- The cells outside the image read as before. -/
theorem writeImage_read_outside {vs : List Nat} {a k : Nat} {s t : State} (h : writeImage vs a s = .ok t)
    (hk : k < a ∨ a + vs.length ≤ k) : t.mem.read k = s.mem.read k := by
  induction vs generalizing a s with
  | nil => cases h; rfl
  | cons v vs ih =>
    obtain ⟨u, hu, ht⟩ := writeImage_cons_ok.mp h
    obtain ⟨_, _, rfl⟩ := memWrite_ok hu
    rw [List.length_cons] at hk
    rw [ih ht (by omega)]
    exact Memory.read_write_ne s.mem _ (by omega)

/-- The cells of the image lie inside memory and read as its values. -/
theorem writeImage_read {vs : List Nat} {a : Nat} {s t : State} (h : writeImage vs a s = .ok t)
    (hm : s.mem.wf = true) (k : Nat) (hk : k < vs.length) : a + k < 256 ∧ (t.mem.read (a + k)).toNat = vs[k] := by
  induction vs generalizing a s k with
  | nil => cases hk
  | cons v vs ih =>
    obtain ⟨u, hu, ht⟩ := writeImage_cons_ok.mp h
    obtain ⟨ha, hv, rfl⟩ := memWrite_ok hu
    cases k with
    | zero =>
      refine ⟨ha, ?_⟩
      rw [Nat.add_zero, writeImage_read_outside ht (.inl (Nat.lt_succ_self a))]
      exact read_write_ofNat hm a hv
    | succ k =>
      have htail := ih ht (Memory.wf_write hm ha _) k (Nat.lt_of_succ_lt_succ hk)
      rwa [Nat.add_right_comm] at htail

/-! ### `load` -/

theorem firstInvalid_eq_none {image : List Nat} (h : ∀ v ∈ image, v ≤ 255) : firstInvalid image = none :=
  List.find?_eq_none.mpr fun v hv => by simpa using h v hv

theorem firstInvalid_append {front : List Nat} (hfront : ∀ u ∈ front, u ≤ 255) {v : Nat} (hv : 255 < v)
    (back : List Nat) : firstInvalid (front ++ v :: back) = some v := by
  have hnone : front.find? (fun u => decide (255 < u)) = none := firstInvalid_eq_none hfront
  simp [firstInvalid, List.find?_append, hnone, hv]

theorem load_of_fits {image : List Nat} (hlen : image.length ≤ 256) (h : ∀ v ∈ image, v ≤ 255) (s : State) :
    load image s = writeImage image 0 s := by
  simp [load, Nat.not_lt.mpr hlen, firstInvalid_eq_none h]

theorem load_too_large {image : List Nat} (h : 256 < image.length) (s : State) :
    load image s = .error .programTooLarge := if_pos h

theorem load_invalid {image : List Nat} {v : Nat} (hlen : image.length ≤ 256) (h : firstInvalid image = some v)
    (s : State) : load image s = .error (.invalidOperand v) := by
  simp [load, Nat.not_lt.mpr hlen, h]

/-- A successful `load` writes memory and nothing else, and keeps its canonical form. -/
theorem load_frame {image : List Nat} {s t : State} (h : load image s = .ok t) :
    t = { s with mem := t.mem } ∧ (s.mem.wf = true → t.mem.wf = true) := by
  obtain ⟨_, _, hwrite⟩ := load_ok h
  exact writeImage_ok hwrite

/-- Settles O48: the image fits and is bytes, so it is written whole, cell by cell. -/
theorem loadInstallsTheImage : Obligations.LoadInstallsTheImage := by
  intro image s hlen hbytes hm
  obtain ⟨t, ht⟩ := writeImage_succeeds (a := 0) s (by omega) hbytes
  obtain ⟨hframe, _⟩ := writeImage_ok ht
  refine ⟨t, (load_of_fits hlen hbytes s).trans ht, fun k hk => ?_, fun a ha => ?_, ?_, ?_, ?_, ?_⟩
  · have := (writeImage_read ht hm k hk).2
    rwa [Nat.zero_add] at this
  · exact writeImage_read_outside ht (.inr (by omega))
  all_goals rw [hframe]

/-- The bytes of a list loaded on a canonical memory stand at address 0. -/
theorem bytesAt_of_load {bs tail : List Byte} {s t : State} (hm : s.mem.wf = true)
    (h : load ((bs ++ tail).map BitVec.toNat) s = .ok t) : bytesAt t.mem 0 bs = true := by
  obtain ⟨_, _, hwrite⟩ := load_ok h
  refine bytesAt_iff.mpr fun k hk => ?_
  obtain ⟨hlt, hread⟩ := writeImage_read hwrite hm k (by simp; omega)
  refine ⟨hlt, BitVec.eq_of_toNat_eq (hread.trans ?_)⟩
  rw [List.getElem_map, List.getElem_append_left hk]

/-- Settles O6: after reset and `load` the core runs at pc 0, where the image's first bytes stand. -/
theorem firstStepRunsTheStartOfTheImage : Obligations.FirstStepRunsTheStartOfTheImage := by
  intro i tail s h
  obtain ⟨hframe, _⟩ := load_frame h
  have hrun : s.run = .running := by rw [hframe]; rfl
  have hpc : s.pc = 0 := by rw [hframe]; rfl
  exact step_of_bytesAt hrun (hpc ▸ bytesAt_of_load wf_reset h)

/-- Settles O49: the length is checked first, then the values; the session takes a failure without touching its core. -/
theorem loadFailsWithNoPartialWrite : Obligations.LoadFailsWithNoPartialWrite := by
  refine ⟨fun image s h => load_too_large h s, fun front back v s hlen hfront hv => ?_, fun image h f hphase hf => ?_⟩
  · exact load_invalid hlen (firstInvalid_append hfront hv back) s
  · simp only [Session.load, hphase, hf]

/-- Settles O50: one case per phase of the session. -/
theorem loadIsAcceptedOncePerReset : Obligations.LoadIsAcceptedOncePerReset := by
  intro image h
  cases hphase : h.phase with
  | constructed =>
    cases hload : load image h.core with
    | ok s => simp [Session.load, Session.run, hphase, hload]
    | error f => simp [Session.load, Session.run, hphase, hload]
  | loaded => simp [Session.load, Session.run, hphase]
  | loadFailed => simp [Session.load, Session.run, hphase]
  | ended => simp [Session.load, Session.run, hphase]

/-! ### Reset and `trace` -/

theorem fetch_zero_byte {s : State} (hp : s.pc = 0) (h0 : s.mem.read 0 = 0) :
    fetch s = .error (.illegalInstruction 0 0) := by
  rw [← hp] at h0
  rw [fetch_illegal (by omega) (by rw [h0]; decide), h0, hp]

/-- Settles O40: the reset values, and the verdict of the first fetch on the byte in cell 0. -/
theorem resetClearsEverything : Obligations.ResetClearsEverything := by
  refine ⟨fun a ha => memRead_of_lt _ ha, fun i hi => ?_, rfl, rfl, rfl, fun s hp h0 => fetch_zero_byte hp h0,
    fun s hp h1 => fetch_ok.mpr ?_⟩
  · rw [regRead_of_lt _ hi, State.reg_eq, State.reset, Vector.getElem_replicate]
  · have hp : s.pc = 0 := hp
    simp [hp, bytesAt, encode, Opcode.pattern, h1]

theorem traceCell_of_lt {a : Nat} (s : State) (h : a < 256) : traceCell s a = some (s.mem.read a) := if_pos h

theorem traceCell_of_ge {a : Nat} (s : State) (h : 256 ≤ a) : traceCell s a = none := if_neg (Nat.not_lt.mpr h)

/-- Place `k` of the window is the cell `k` places after the program counter (R160). -/
theorem trace_window (s : State) {k : Nat} (hk : k < 3) :
    (trace s).window[k]? = some (traceCell s (s.pc + k)) := by
  match k with
  | 0 | 1 | 2 => rfl

theorem traceCell_congr {s t : State} {a : Nat} (h : t.mem.read a = s.mem.read a) : traceCell t a = traceCell s a := by
  simp only [traceCell, h]

/-- Settles O52: the window is three cells, each read by its own address. -/
theorem traceReadsTheWindowOnly : Obligations.TraceReadsTheWindowOnly := by
  refine ⟨fun s => ⟨rfl, rfl, rfl⟩, fun s t hpc hx hcells => ?_, fun s k hk => ⟨fun h => ?_, fun h => ?_⟩⟩
  · have h0 := traceCell_congr (hcells 0 (by decide))
    have h1 := traceCell_congr (hcells 1 (by decide))
    have h2 := traceCell_congr (hcells 2 (by decide))
    simp only [Nat.add_zero] at h0
    simp only [trace, hpc, hx, h0, h1, h2]
  · rw [trace_window s hk, traceCell_of_lt s h]
  · rw [trace_window s hk, traceCell_of_ge s h]

end Sys2Proof.Machine
end

section
/-! PROOFS. The invariant of reachable states: it holds after reset, `load` and every step keep it (R35). -/

namespace Sys2Proof.Machine

/-- A running core has no end for its run state to agree with. -/
theorem State.runAgrees_of_running {s : State} (h : s.run = .running) : s.runAgrees := by
  simp [State.runAgrees, h]

/-- The run state a step leaves tells the truth about the state it leaves (R105, R122 to R124, R130). -/
theorem StepCase.runAgrees {s t : State} (c : StepCase s t) (hrun : s.run = .running) (hpc : s.pc ≤ 256) :
    t.runAgrees := by
  cases c with
  | hlt hp hop => exact ⟨hp, hop⟩
  | ldi | prn | mul => exact State.runAgrees_of_running hrun
  | firstIndex r hp hop hr h => exact ⟨h, Nat.le_of_lt_succ r.isLt, show s.pc ≤ 254 by omega⟩
  | secondIndex a b hp hop ha hb h h' => exact ⟨h', Nat.le_of_lt_succ b.isLt, show s.pc ≤ 254 by omega⟩
  | illegal hp hop => exact ⟨rfl, hp, rfl, hop⟩
  | opcodeFetch hp => exact ⟨Nat.le_antisymm hpc hp, show 254 ≤ s.pc by omega⟩
  | firstOperand hp hop => exact ⟨rfl, show 254 ≤ s.pc by omega⟩
  | secondOperand hp hop => exact ⟨rfl, show 254 ≤ s.pc by omega⟩

theorem State.GoesOn.out_length_le {s t : State} (h : s.GoesOn t) : t.out.length ≤ s.out.length + 1 := by
  obtain hout | ⟨v, hout⟩ := h.out_eq <;> simp [hout]

/-- The program counter and the output bound of a state carry over a step. -/
theorem step_bounds {s t : State} (h : step s = .next t) (hpc : s.pc ≤ 256) (hout : 2 * s.out.length ≤ s.pc) :
    t.pc ≤ 256 ∧ 2 * t.out.length ≤ t.pc := by
  obtain hgo | ⟨rfl, _⟩ | ⟨f, rfl, _⟩ := step_goesOn_or_halts_or_fails h
  · have hlen := hgo.out_length_le
    have hpc' := hgo.pc_eq
    exact ⟨hgo.pc_le, by omega⟩
  · exact ⟨hpc, hout⟩
  · exact ⟨hpc, hout⟩

theorem step_keeps_inv {s t : State} (hs : s.Inv) (h : step s = .next t) : t.Inv := by
  obtain ⟨hrun, hcase⟩ := step_next h
  obtain ⟨hpc, hout⟩ := step_bounds h hs.pcLe hs.outLe
  exact ⟨step_mem h ▸ hs.memWf, hpc, hout, hcase.runAgrees hrun hs.pcLe⟩

theorem load_keeps_inv {image : List Nat} {s t : State} (hs : s.Inv) (hrun : s.run = .running)
    (h : load image s = .ok t) : t.Inv := by
  obtain ⟨hframe, hwf⟩ := load_frame h
  rw [hframe]
  exact ⟨hwf hs.memWf, hs.pcLe, hs.outLe, State.runAgrees_of_running hrun⟩

theorem inv_reset : State.reset.Inv := ⟨wf_reset, Nat.zero_le _, Nat.le_refl 0, State.runAgrees_of_running rfl⟩

/-- At most one value for every two bytes of memory (R101). -/
theorem State.Inv.out_length_le {s : State} (h : s.Inv) : s.out.length ≤ 128 := by
  have hpc := h.pcLe
  have hout := h.outLe
  omega

/-- Settles O41: every field of the reset state is at its reset value. -/
theorem resetMeetsTheInvariant : Obligations.ResetMeetsTheInvariant := inv_reset

/-- Settles O42: each field of the invariant over the cases of a step. -/
theorem everyStepKeepsTheInvariant : Obligations.EveryStepKeepsTheInvariant := fun _ _ => step_keeps_inv

/-- Settles O43: `load` writes memory alone, and keeps its canonical form. -/
theorem loadKeepsTheInvariant : Obligations.LoadKeepsTheInvariant := fun _ _ _ => load_keeps_inv

/-- Settles O44: the invariant at the start, and that every step keeps it. -/
theorem reachableStatesMeetTheInvariant : Obligations.ReachableStatesMeetTheInvariant := by
  intro image s t n hstart hsteps
  have hs : s.Inv := by
    obtain rfl | hload := hstart
    · exact inv_reset
    · exact load_keeps_inv inv_reset rfl hload
  have ht : t.Inv := stepsTo_keeps (fun _ _ => step_keeps_inv) hs hsteps
  exact ⟨ht, ht.out_length_le⟩

end Sys2Proof.Machine
end

section
/-! PROOFS. Runs: a bound on the steps left ends every run from every state; what `run` and the host's interface then
answer, and the lines a run adds (R100, R101, R158 to R161). -/

namespace Sys2Proof.Machine

/-! ### The steps left -/

/-- A bound on the steps left from a state: a running core moves on by two bytes or more, or ends (R101). -/
def stepsLeft (s : State) : Nat :=
  match s.run with
  | .running => (256 - s.pc) / 2 + 1
  | .halted => 0
  | .faulted _ => 0

theorem stepsLeft_of_running {s : State} (h : s.run = .running) : stepsLeft s = (256 - s.pc) / 2 + 1 := by
  simp [stepsLeft, h]

theorem stepsLeft_le (s : State) : stepsLeft s ≤ 129 := by
  unfold stepsLeft
  split <;> omega

theorem stepsLeft_step_lt {s t : State} (h : step s = .next t) : stepsLeft t < stepsLeft s := by
  have hrun := (step_next h).1
  rw [stepsLeft_of_running hrun]
  obtain hgo | ⟨rfl, _⟩ | ⟨f, rfl, _⟩ := step_goesOn_or_halts_or_fails h
  · have hle := hgo.pc_le
    rw [stepsLeft_of_running (hgo.run_eq.trans hrun)]
    obtain hpc | hpc := hgo.pc_eq <;> omega
  · exact Nat.succ_pos _
  · exact Nat.succ_pos _

theorem stepsTo_le_stepsLeft {n : Nat} {s t : State} (h : StepsTo n s t) : n ≤ stepsLeft s := by
  induction n generalizing s with
  | zero => exact Nat.zero_le _
  | succ n ih =>
    obtain ⟨u, hstep, hu⟩ := h
    have := ih hu
    have := stepsLeft_step_lt hstep
    omega

/-- With as much fuel as steps are left, a run reaches an end, by steps. -/
theorem runFor_reaches_end {n : Nat} {s : State} (h : stepsLeft s ≤ n) :
    (∃ k, k ≤ n ∧ StepsTo k s (runFor n s)) ∧ (runFor n s).run ≠ .running := by
  induction n generalizing s with
  | zero =>
    refine ⟨⟨0, Nat.le_refl 0, rfl⟩, fun hrun => ?_⟩
    have hpos : 0 < stepsLeft s := stepsLeft_of_running (s := s) hrun ▸ Nat.succ_pos _
    omega
  | succ n ih =>
    by_cases hrun : s.run = .running
    · obtain ⟨t, hstep, _⟩ := step_of_running hrun
      have hlt := stepsLeft_step_lt hstep
      obtain ⟨⟨k, hk, hsteps⟩, hend⟩ := ih (s := t) (by omega)
      simp only [runFor, hstep]
      exact ⟨⟨k + 1, Nat.succ_le_succ hk, t, hstep, hsteps⟩, hend⟩
    · rw [runFor_stopped hrun]
      exact ⟨⟨0, Nat.zero_le _, rfl⟩, hrun⟩

theorem run_reaches_end (s : State) : (∃ n, n ≤ 129 ∧ StepsTo n s (run s)) ∧ (run s).run ≠ .running :=
  runFor_reaches_end (stepsLeft_le s)

/-- Twice the output plus the bytes left never grows along a run, so at most 128 values are emitted. -/
theorem run_out_length_le (s : State) : (run s).out.length ≤ s.out.length + 128 := by
  have hkeeps : 2 * (run s).out.length + (256 - (run s).pc) ≤ 2 * s.out.length + (256 - s.pc) := by
    refine runFor_keeps (P := fun t => 2 * t.out.length + (256 - t.pc) ≤ 2 * s.out.length + (256 - s.pc))
      (fun t u ht hstep => ?_) _ s (Nat.le_refl _)
    obtain hgo | ⟨rfl, _⟩ | ⟨f, rfl, _⟩ := step_goesOn_or_halts_or_fails hstep
    · have hlen := hgo.out_length_le
      have hpc := hgo.pc_eq
      have hle := hgo.pc_le
      omega
    · exact ht
    · exact ht
  omega

/-- Settles O45: the steps left bound every sequence of steps, and 129 bounds the steps left. -/
theorem everyRunEndsWithin129Steps : Obligations.EveryRunEndsWithin129Steps := by
  intro s
  obtain ⟨hsteps, hend⟩ := run_reaches_end s
  exact ⟨hsteps, hend, fun m t h => (stepsTo_le_stepsLeft h).trans (stepsLeft_le s), run_out_length_le s⟩

/-! ### How a run comes back -/

/-- The two ends of a run, each with what the host gets back. -/
theorem run_halted_or_faulted (s : State) : (run s).run = .halted ∨ ∃ f, (run s).run = .faulted f := by
  have hend := (run_reaches_end s).2
  cases hrun : (run s).run with
  | running => exact absurd hrun hend
  | halted => exact .inl rfl
  | faulted f => exact .inr ⟨f, rfl⟩

/-- Settles O46: 129 steps reach one of the two ends; reset and `load` leave pc 0. -/
theorem runComesBackWithTheEndOfTheRun : Obligations.RunComesBackWithTheEndOfTheRun := by
  intro s
  obtain ⟨⟨n, _, hsteps⟩, _⟩ := run_reaches_end s
  refine ⟨⟨n, hsteps⟩, ?_, fun image hstart => ?_⟩
  · obtain hend | ⟨f, hend⟩ := run_halted_or_faulted s
    · exact .inl ⟨hend, by rw [hend]; rfl⟩
    · exact .inr ⟨f, hend, by rw [hend]; rfl⟩
  · obtain rfl | hload := hstart
    · rfl
    · rw [(load_frame hload).1]
      rfl

/-- The host's interface goes along the steps of a run and stops with the fault of its end. -/
theorem coreRun_of_stepsTo {n : Nat} {s t : State} {r : Fault} (h : StepsTo n s t) (hend : step t = .fault r)
    (extra : Nat) : Host.Core.run Sys2Proof.core (extra + n + 1) s = .fault r := by
  induction n generalizing s with
  | zero =>
    cases h
    exact coreRun_fault hend
  | succ n ih =>
    obtain ⟨u, hstep, hu⟩ := h
    exact (coreRun_next hstep).trans (ih hu)

/-- Settles O47: the steps to the end are fewer than 130, and the step after them is the fault. -/
theorem hostInterfaceRunStopsAtTheEndOfTheRun : Obligations.HostInterfaceRunStopsAtTheEndOfTheRun := by
  intro s k hk
  obtain ⟨⟨n, hn, hsteps⟩, _⟩ := run_reaches_end s
  obtain ⟨extra, rfl⟩ : ∃ extra, k = extra + n + 1 := ⟨k - n - 1, by omega⟩
  obtain hend | ⟨f, hend⟩ := run_halted_or_faulted s
  · exact .inl ⟨hend, coreRun_of_stepsTo hsteps (step_of_halted hend) extra⟩
  · exact .inr ⟨f, hend, coreRun_of_stepsTo hsteps (step_of_faulted hend) extra⟩

theorem run_run (s : State) : run (run s) = run s := run_of_not_running (run_reaches_end s).2

theorem runResult_run_ne_none (s : State) : runResult (run s).run ≠ none := by
  obtain hend | ⟨f, hend⟩ := run_halted_or_faulted s <;> rw [hend] <;> exact nofun

/-- Everything the session's `run` can answer with. -/
theorem session_run_next {h h' : Session} {r : Option RunResult} (e : h.run = .next (h', r)) :
    h' = { core := run h.core, phase := .ended } ∧ r = runResult (run h.core).run := by
  unfold Session.run at e
  split at e <;> cases e <;> exact ⟨rfl, rfl⟩

/-- Settles O51: the core a session's `run` leaves has ended, so the next `run` leaves it. -/
theorem runAgainChangesNothing : Obligations.RunAgainChangesNothing := by
  refine ⟨run_run, fun h h' r e => ?_⟩
  obtain ⟨rfl, rfl⟩ := session_run_next e
  refine ⟨rfl, runResult_run_ne_none h.core, ?_⟩
  simp only [Session.run, run_run]

/-! ### The lines of a run -/

theorem outLines_append {s t : State} {more : List Byte} (h : t.out = s.out ++ more) :
    outLines t = outLines s ++ more.map fun v => Nat.repr v.toNat := by
  simp only [outLines, h, List.map_append]
  rfl

/-- A run only adds to the output. -/
theorem run_out (s : State) : ∃ more, (run s).out = s.out ++ more := by
  refine runFor_keeps (P := fun t => ∃ more, t.out = s.out ++ more) (fun t u ⟨more, hmore⟩ hstep => ?_) _ s
    ⟨[], (List.append_nil _).symm⟩
  obtain hout | ⟨v, hout⟩ := step_out hstep
  · exact ⟨more, hout.trans hmore⟩
  · exact ⟨more ++ [v], by rw [hout, hmore, List.append_assoc]⟩

/-- Settles O53: the lines of an output that grew at its end. -/
theorem outputLinesStayInOrder : Obligations.OutputLinesStayInOrder := by
  refine ⟨fun _ => rfl, fun s t hstep => ?_, fun s => ?_⟩
  · obtain hout | ⟨v, hout⟩ := step_out hstep
    · exact .inl ⟨hout, by simp only [outLines, hout]⟩
    · exact .inr ⟨v, hout, outLines_append hout⟩
  · obtain ⟨more, hout⟩ := run_out s
    exact ⟨more, hout, outLines_append hout⟩

end Sys2Proof.Machine
end
